-- ==== Sys2Proof/Word.lean ====
section
/-! DEFINITION. The word types of the block (00_scope.md R7): bytes, 32-bit words, the 512-byte frame. -/

namespace Sys2Proof

/-- 8 bits (R7). -/
abbrev Byte := BitVec 8

/-- 32 bits (R7). -/
abbrev Word := BitVec 32

/-- The contents of a frame buffer: always exactly 512 bytes (R9 "frame", R11). -/
abbrev Frame := Vector Byte 512

end Sys2Proof
end

