-- ==== Sys2Proof/Syntax.lean ====
section
/-! DEFINITION. The operations of 30_encoding.md R63, one constructor per row of spec/opcode_table.json, and the two
pseudo-instructions of R67. -/

namespace Sys2Proof

/-- The 21 operations (R63). `off` is OFF, the slice-relative byte offset, and `len` is LEN, the byte count; both
are naturals (R62), and `Instr.wf` says which values an encoding can carry. -/
inductive Instr where
  | nop
  | cksum
  | ckstamp
  | ckvfy
  | scr
  | dscr
  | fbuild
  | getu8 (off : Nat)
  | getu16 (off : Nat)
  | getu32 (off : Nat)
  | getu48 (off : Nat)
  | getcap (off : Nat)
  | getstr (off len : Nat)
  | getraw (off len : Nat)
  | seqchk
  | decchip
  | decrport
  | decsata
  | decsport
  | decsmartv
  | decsmartt
deriving DecidableEq, Repr

/-- The two pseudo-instructions (R67); they have no opcode. -/
inductive Pseudo where
  | txseal
  | rxopen
deriving DecidableEq, Repr

end Sys2Proof
end

