-- ==== Sys2Proof/WellFormed.lean ====
section
/-! DEFINITION. Which operands an encoding can carry (30_encoding.md R61, R66). -/

namespace Sys2Proof

/-- OFF is an unsigned 9-bit number: 0 to 511 (R62, R66). -/
def offOk (off : Nat) : Bool := decide (off ≤ 511)

/-- LEN is an unsigned 8-bit number: 0 to 255 (R62, R66). A length the operation itself faults on is still well formed. -/
def lenOk (len : Nat) : Bool := decide (len ≤ 255)

/-- The assembler's operand check (R66): "An assembler rejects an operand out of the stated range". -/
def Instr.wf : Instr → Bool
  | .nop => true
  | .cksum => true
  | .ckstamp => true
  | .ckvfy => true
  | .scr => true
  | .dscr => true
  | .fbuild => true
  | .getu8 off => offOk off
  | .getu16 off => offOk off
  | .getu32 off => offOk off
  | .getu48 off => offOk off
  | .getcap off => offOk off
  | .getstr off len => offOk off && lenOk len
  | .getraw off len => offOk off && lenOk len
  | .seqchk => true
  | .decchip => true
  | .decrport => true
  | .decsata => true
  | .decsport => true
  | .decsmartv => true
  | .decsmartt => true

end Sys2Proof
end

