-- ==== Sys2Proof/Decode.lean ====
section
/-! DEFINITION. Decoding a command word (30_encoding.md R61 to R68), and after it the encoder and the assembler's
side of the same table (R66, R67). -/

namespace Sys2Proof

/-- Why a command word is illegal, one name per case of R64. Every one of them is the fault E_OPC when the word is
written to CMD (R68); nothing executes (safe: it is what the spec says). -/
inductive Illegal where
  /-- R64 (a): OPC is none of the 21 values of R63. -/
  | unassignedOpcode
  /-- R64 (b): a nonzero bit in ZERO (15:9). -/
  | nonzeroZero
  /-- R64 (c): a format N opcode with nonzero LEN or OFF. -/
  | nonzeroLenOrOff
  /-- R64 (d): a format O opcode with nonzero LEN. -/
  | nonzeroLen
deriving DecidableEq, Repr

/-- What an opcode selects: an operation of format N, O or S (R61). -/
inductive OpRow where
  | n (i : Instr)
  | o (mk : Nat → Instr)
  | s (mk : Nat → Nat → Instr)

/-- OPC, bits 31:24 (R61). -/
def opcField (c : Word) : Nat := (c.extractLsb' 24 8).toNat

/-- LEN, bits 23:16 (R61). -/
def lenField (c : Word) : Nat := (c.extractLsb' 16 8).toNat

/-- ZERO, bits 15:9 (R61). -/
def zeroField (c : Word) : Nat := (c.extractLsb' 9 7).toNat

/-- OFF, bits 8:0 (R61), unsigned and not scaled (R62). -/
def offField (c : Word) : Nat := (c.extractLsb' 0 9).toNat

/-- The opcode map (R63). Every other value of OPC is unassigned. -/
def opcodeRow (opc : Nat) : Option OpRow :=
  match opc with
  | 0x00 => some (.n .nop)
  | 0x01 => some (.n .cksum)
  | 0x02 => some (.n .ckstamp)
  | 0x03 => some (.n .ckvfy)
  | 0x10 => some (.n .scr)
  | 0x11 => some (.n .dscr)
  | 0x20 => some (.n .fbuild)
  | 0x30 => some (.o .getu8)
  | 0x31 => some (.o .getu16)
  | 0x32 => some (.o .getu32)
  | 0x33 => some (.o .getu48)
  | 0x34 => some (.o .getcap)
  | 0x35 => some (.s .getstr)
  | 0x36 => some (.s .getraw)
  | 0x40 => some (.n .seqchk)
  | 0x41 => some (.n .decchip)
  | 0x42 => some (.n .decrport)
  | 0x43 => some (.n .decsata)
  | 0x44 => some (.n .decsport)
  | 0x45 => some (.n .decsmartv)
  | 0x46 => some (.n .decsmartt)
  | _ => none

/-- R68: decoding is total; every 32-bit word is one operation or illegal by name, and no state is consulted (R60). -/
def decode (c : Word) : Except Illegal Instr :=
  match opcodeRow (opcField c) with
  | none => .error .unassignedOpcode
  | some row =>
    if zeroField c ≠ 0 then .error .nonzeroZero
    else
      match row with
      | .n i => if lenField c ≠ 0 ∨ offField c ≠ 0 then .error .nonzeroLenOrOff else .ok i
      | .o mk => if lenField c ≠ 0 then .error .nonzeroLen else .ok (mk (offField c))
      | .s mk => .ok (mk (offField c) (lenField c))

/-- The host's view of the decoder: the instruction the table's `nbits`-bit word `w` stands for; the bits above
`nbits` are 0. A command is one 32-bit word (R60), so its bits are the word's own. -/
def decodeTableWord (nbits w : Nat) : Option Instr :=
  match decode (BitVec.ofNat 32 (w % 2 ^ nbits)) with
  | .ok i => some i
  | .error _ => none

/-- A command word from its fields, ZERO being 0: `OPC * 2^24 + LEN * 2^16 + OFF` (R66). -/
def commandWord (opc len off : Nat) : Word := BitVec.ofNat 32 (opc * 0x1000000 + len * 0x10000 + off)

/-- The encoding of an operation (R63, R66). -/
def encode : Instr → Word
  | .nop => commandWord 0x00 0 0
  | .cksum => commandWord 0x01 0 0
  | .ckstamp => commandWord 0x02 0 0
  | .ckvfy => commandWord 0x03 0 0
  | .scr => commandWord 0x10 0 0
  | .dscr => commandWord 0x11 0 0
  | .fbuild => commandWord 0x20 0 0
  | .getu8 off => commandWord 0x30 0 off
  | .getu16 off => commandWord 0x31 0 off
  | .getu32 off => commandWord 0x32 0 off
  | .getu48 off => commandWord 0x33 0 off
  | .getcap off => commandWord 0x34 0 off
  | .getstr off len => commandWord 0x35 len off
  | .getraw off len => commandWord 0x36 len off
  | .seqchk => commandWord 0x40 0 0
  | .decchip => commandWord 0x41 0 0
  | .decrport => commandWord 0x42 0 0
  | .decsata => commandWord 0x43 0 0
  | .decsport => commandWord 0x44 0 0
  | .decsmartv => commandWord 0x45 0 0
  | .decsmartt => commandWord 0x46 0 0

/-- The mnemonic of R63. -/
def mnemonic : Instr → String
  | .nop => "NOP"
  | .cksum => "CKSUM"
  | .ckstamp => "CKSTAMP"
  | .ckvfy => "CKVFY"
  | .scr => "SCR"
  | .dscr => "DSCR"
  | .fbuild => "FBUILD"
  | .getu8 _ => "GETU8"
  | .getu16 _ => "GETU16"
  | .getu32 _ => "GETU32"
  | .getu48 _ => "GETU48"
  | .getcap _ => "GETCAP"
  | .getstr _ _ => "GETSTR"
  | .getraw _ _ => "GETRAW"
  | .seqchk => "SEQCHK"
  | .decchip => "DECCHIP"
  | .decrport => "DECRPORT"
  | .decsata => "DECSATA"
  | .decsport => "DECSPORT"
  | .decsmartv => "DECSMARTV"
  | .decsmartt => "DECSMARTT"

/-- The mask of the operation's row (R61, R63): by format, N all bits, O all but OFF, S all but LEN and OFF. -/
def rowMask : Instr → Word
  | .getu8 _ | .getu16 _ | .getu32 _ | .getu48 _ | .getcap _ => 0xFFFFFE00
  | .getstr _ _ | .getraw _ _ => 0xFF00FE00
  | .nop | .cksum | .ckstamp | .ckvfy | .scr | .dscr | .fbuild | .seqchk | .decchip | .decrport | .decsata
  | .decsport | .decsmartv | .decsmartt => 0xFFFFFFFF

/-- The match value of the operation's row (R61, R63): `OPC * 2^24`. -/
def rowMatch : Instr → Word
  | .nop => 0x00000000
  | .cksum => 0x01000000
  | .ckstamp => 0x02000000
  | .ckvfy => 0x03000000
  | .scr => 0x10000000
  | .dscr => 0x11000000
  | .fbuild => 0x20000000
  | .getu8 _ => 0x30000000
  | .getu16 _ => 0x31000000
  | .getu32 _ => 0x32000000
  | .getu48 _ => 0x33000000
  | .getcap _ => 0x34000000
  | .getstr _ _ => 0x35000000
  | .getraw _ _ => 0x36000000
  | .seqchk => 0x40000000
  | .decchip => 0x41000000
  | .decrport => 0x42000000
  | .decsata => 0x43000000
  | .decsport => 0x44000000
  | .decsmartv => 0x45000000
  | .decsmartt => 0x46000000

/-- The assembler (R66): the encoding, or nothing where an operand is out of the stated range. -/
def assemble (i : Instr) : Option Word := if i.wf then some (encode i) else none

/-- One line of a listing (R66): the mnemonic in capitals, operands in decimal separated by a comma. -/
def listingLine (i : Instr) : String :=
  match i with
  | .getu8 off | .getu16 off | .getu32 off | .getu48 off | .getcap off => mnemonic i ++ " " ++ toString off
  | .getstr off len | .getraw off len => mnemonic i ++ " " ++ toString off ++ ", " ++ toString len
  | .nop | .cksum | .ckstamp | .ckvfy | .scr | .dscr | .fbuild | .seqchk | .decchip | .decrport | .decsata
  | .decsport | .decsmartv | .decsmartt => mnemonic i

/-- The expansion of a pseudo-instruction into two operations, in order (R67). -/
def expand : Pseudo → List Instr
  | .txseal => [.ckstamp, .scr]
  | .rxopen => [.dscr, .ckvfy]

end Sys2Proof
end

