-- ==== Sys2Proof/Config.lean ====
section
/-! DEFINITION. The implementation parameters of 00_scope.md R5 as one configuration record, of which the
model knows only the constraints R5 gives, and the values the spec leaves unspecified at reset (R34, R181). -/

namespace Sys2Proof

/-- The width of a numeric field whose width the layout chooses: 1, 2 or 4 bytes (R126). -/
inductive Width where
  | w1
  | w2
  | w4
deriving DecidableEq, Repr, Inhabited

/-- The number of bytes of a `Width`. -/
def Width.bytes : Width → Nat
  | .w1 => 1
  | .w2 => 2
  | .w4 => 4

/-- An `(off, w)` layout parameter (R126). -/
structure SizedField where
  off : Nat := 0
  width : Width := .w1
deriving Inhabited

/-- An `(off, mask)` layout parameter of a member flag: inside the 0x20-byte member, mask nonzero (R127). -/
structure FlagField where
  off : Nat := 0
  mask : Byte := 1
  inside : off + 1 ≤ 0x20 := by decide
  nonzero : mask ≠ 0 := by decide
deriving Inhabited

/-- `L.chip.*`, the ChipInfo layout (R123): each a natural, with no further constraint. -/
structure ChipLayout where
  fw : Nat := 0
  manuf : Nat := 0
  product : Nat := 0
  serial : Nat := 0
deriving Inhabited

/-- `L.rp.*`, the RaidPortInfo layout (R126). -/
structure RaidPortLayout where
  model : Nat := 0
  serial : Nat := 0
  portState : Nat := 0
  level : Nat := 0
  password : Nat := 0
  state : Nat := 0
  memberCount : Nat := 0
  rebuildPrio : Nat := 0
  standby : SizedField := {}
  rebuildProgress : SizedField := {}
  capacity : Nat := 0
  memberBase : Nat := 0
deriving Inhabited

/-- `L.mb.*`, the member layout (R127): every field lies inside the 0x20-byte sub-record. -/
structure MemberLayout where
  ready : FlagField := {}
  lba48 : FlagField := {}
  sataIndex : Nat := 0
  baseLba : Nat := 0
  size : Nat := 0
  sataIndex_inside : sataIndex + 1 ≤ 0x20 := by decide
  baseLba_inside : baseLba + 4 ≤ 0x20 := by decide
  size_inside : size + 4 ≤ 0x20 := by decide
deriving Inhabited

/-- `L.si.base` and `L.it.*`, the SataInfo layout (R130): every item field lies inside the 0x50-byte sub-record. -/
structure ItemLayout where
  base : Nat := 0
  model : Nat := 0
  serial : Nat := 0
  capacity : Nat := 0
  portType : Nat := 0
  portSpeed : Nat := 0
  pageState : Nat := 0
  raidIndex : Nat := 0
  memberIndex : Nat := 0
  portNumber : Nat := 0
  model_inside : model + 40 ≤ 0x50 := by decide
  serial_inside : serial + 20 ≤ 0x50 := by decide
  capacity_inside : capacity + 4 ≤ 0x50 := by decide
  portType_inside : portType + 1 ≤ 0x50 := by decide
  portSpeed_inside : portSpeed + 1 ≤ 0x50 := by decide
  pageState_inside : pageState + 1 ≤ 0x50 := by decide
  raidIndex_inside : raidIndex + 1 ≤ 0x50 := by decide
  memberIndex_inside : memberIndex + 1 ≤ 0x50 := by decide
  portNumber_inside : portNumber + 1 ≤ 0x50 := by decide
deriving Inhabited

/-- `L.sp.*`, the SataPortInfo layout (R133). -/
structure SataPortLayout where
  model : Nat := 0
  serial : Nat := 0
  capacity : Nat := 0
  portType : Nat := 0
  portSpeed : Nat := 0
  pageState : Nat := 0
  raidIndex : Nat := 0
  memberIndex : Nat := 0
  portNumber : Nat := 0
  used : Nat := 0
  fw : Nat := 0
deriving Inhabited

/-- `L.sm.*`, the layout inside a SMART slot (R136): every field lies inside the 0x0C-byte slot. A value built
with no field given is R136's table of defaults (0, 1, 3, 4, 5). -/
structure SmartLayout where
  id : Nat := 0
  flags : Nat := 1
  cur : Nat := 3
  worst : Nat := 4
  raw : Nat := 5
  id_inside : id + 1 ≤ 0x0C := by decide
  flags_inside : flags + 2 ≤ 0x0C := by decide
  cur_inside : cur + 1 ≤ 0x0C := by decide
  worst_inside : worst + 1 ≤ 0x0C := by decide
  raw_inside : raw + 6 ≤ 0x0C := by decide
deriving Inhabited

/-- `E.*`, the enumeration tables (R5, R140). Result 0xFF is the UNKNOWN marker; the two constraints on
`raidLevel` are R5's: 0x09 is unknown, and some input (the one naming RAID 0) is known. -/
structure EnumTables where
  raidLevel : Byte → Byte := fun b => if b = 0 then 0 else 0xFF
  raidState : Byte → Byte := fun _ => 0xFF
  sataPortType : Byte → Byte := fun _ => 0xFF
  sataPortSpeed : Byte → Byte := fun _ => 0xFF
  sataPageState : Byte → Byte := fun _ => 0xFF
  smartName : Byte → Byte := fun _ => 0xFF
  rebuildBand : BitVec 16 → Byte := fun _ => 0xFF
  raidLevel_unknown : raidLevel 0x09 = 0xFF := by decide
  raidLevel_known : ∃ b, raidLevel b ≠ 0xFF := by exact ⟨0, by decide⟩
deriving Inhabited

/-- The configuration record of R5. `checksum` is `P_CK`, `scramble` is `P_SCR`, `descramble` is `P_DSCR` with R5's one
law, `base` is `BASE`. Where the fields of the layouts end is not bounded: the rules that R5's "as those rules say" points
to constrain only members, items and SMART slots, and a layout may put a field past every slice (log entry 5). The fields'
defaults are there only to show that R5's constraints can be met; the machine does not use them (see `Config.params`). -/
structure Params where
  checksum : Vector Word 127 → Word := fun _ => 0
  scramble : Frame → Frame := fun f => f
  descramble : Frame → Frame := fun f => f
  descramble_scramble : ∀ f, descramble (scramble f) = f := by intro f; rfl
  chip : ChipLayout := {}
  raidPort : RaidPortLayout := {}
  member : MemberLayout := {}
  item : ItemLayout := {}
  sataPort : SataPortLayout := {}
  smart : SmartLayout := {}
  enums : EnumTables := {}
  base : Nat := 0
  base_aligned : base % 4096 = 0 := by decide
deriving Inhabited

/-- The machine's parameters: a constant of which nothing but R5's constraints (the proof fields of `Params`) can
be proved. R6: "A model must therefore carry them as opaque configuration functions". Log entry 2. -/
opaque Config.params : Params

/-- The byte FB[i] holds after the `n`-th reset: unspecified (R34), so a free value (R181). Log entry 1. -/
opaque Config.resetFb (n i : Nat) : Byte

/-- The byte PB[i] holds after the `n`-th reset: unspecified (R34), so a free value (R181). Log entry 1. -/
opaque Config.resetPb (n i : Nat) : Byte

/-- MAGIC after the `n`-th reset: unspecified (R34), so a free value (R181). Log entry 1. -/
opaque Config.resetMagic (n : Nat) : Word

/-- LASTSEQ after the `n`-th reset: unspecified (R34), so a free value (R181). Log entry 1. -/
opaque Config.resetLastSeq (n : Nat) : Word

/-- CKRES after the `n`-th reset: unspecified (R34), so a free value (R181). Log entry 1. -/
opaque Config.resetCkres (n : Nat) : Word

/-- XR after the `n`-th reset: unspecified (R34), so a free value (R181). Log entry 1. -/
opaque Config.resetXr (n : Nat) : BitVec 64

end Sys2Proof
end

