-- ==== Sys2Proof/Machine/State.lean ====
section
/-! DEFINITION. The complete state of the block (10_state.md R10 to R33), the host accesses that drive it
(20_memory.md R40 to R47, R50), and reset (R34, R180). -/

namespace Sys2Proof.Machine

/-- The flags of STATUS (R14). Bit 6 and bits 31:8 are reserved, read 0 and cannot be written, so they hold no state. -/
structure Status where
  /-- bit 0, CKOK: the latest CKVFY found a match and FB has not been written since -/
  ckok : Bool
  /-- bit 1, CKBAD: the latest CKVFY found a mismatch and FB has not been written since -/
  ckbad : Bool
  /-- bit 2, SEQOK: the latest SEQCHK found a match and FB has not been written since -/
  seqok : Bool
  /-- bit 3, SEQBAD: the latest SEQCHK found none and FB has not been written since -/
  seqbad : Bool
  /-- bit 4, SEQX: the sequence counter has used 0xFFFFFFFF -/
  seqx : Bool
  /-- bit 5, LSV: LASTSEQ holds the sequence number of a frame built since reset -/
  lsv : Bool
  /-- bit 7, FLT: the block has faulted and is frozen -/
  flt : Bool
deriving DecidableEq, Repr

/-- The sizes a host access can have: 1, 2 or 4 bytes (R7, R42). -/
inductive AccessSize where
  | byte
  | half
  | word
deriving DecidableEq, Repr

/-- What the outside world can do to the block (R50): a host access at a window offset, or the reset input (R180).
Of a write's value the low 8, 16 or 32 bits count (R43). -/
inductive HostAccess where
  | read (off : Nat) (size : AccessSize)
  | write (off : Nat) (size : AccessSize) (v : Word)
  | reset
deriving DecidableEq, Repr

/-- What the host got from its latest access (R43, R46): nothing yet, the value read, an accepted write, or the
refusal of an illegal access. -/
inductive BusResponse where
  | none
  | data (v : Word)
  | done
  | busError
deriving DecidableEq, Repr

/-- The fault codes of FAULT.CODE (60_exceptions.md R161). -/
inductive FaultCode where
  /-- 1, E_OPC: an illegal command word -/
  | eOpc
  /-- 2, E_PLEN: PLEN > 504 when FBUILD runs -/
  | ePlen
  /-- 3, E_RANGE: a field to be read does not lie inside FB -/
  | eRange
  /-- 4, E_SEQX: FBUILD with all sequence numbers used -/
  | eSeqx
  /-- 5, E_LEN: LEN not legal for GETSTR or GETRAW -/
  | eLen
  /-- 6, E_KIND: DECSMARTT when REC holds no SMART record -/
  | eKind
deriving DecidableEq, Repr

/-- Everything the block holds between steps (R10), each field under its own name, and three fields of the
model's own: `pending`, `response` and `resetCount` (log entries 3, 4 and 1). -/
structure State where
  /-- FB, the frame buffer (R11) -/
  fb : Frame
  /-- PB, the payload buffer (R12) -/
  pb : Vector Byte 504
  /-- STATUS (R14) -/
  status : Status
  /-- FAULT.CODE, bits 7:0 of FAULT; bits 31:8 read 0 (R15) -/
  faultCode : Byte
  /-- FAULTCMD (R16) -/
  faultCmd : Word
  /-- MAGIC (R17) -/
  magic : Word
  /-- SEQ (R18) -/
  seq : Word
  /-- LASTSEQ (R19) -/
  lastSeq : Word
  /-- PLEN (R20) -/
  plen : Word
  /-- ROFF (R21) -/
  roff : Word
  /-- CKRES (R22) -/
  ckres : Word
  /-- XR, read as XRLO and XRHI (R23) -/
  xr : BitVec 64
  /-- SLEN (R24) -/
  slen : Word
  /-- SR (R24) -/
  sr : Vector Byte 64
  /-- REC, the record bank (R26 to R33) -/
  record : Vector Byte 1024
  /-- The model's own: the accesses the host has still to issue, the next one first (R50). Log entry 3. -/
  pending : List HostAccess
  /-- The model's own: the bus's answer to the latest access (R46). Log entry 4. -/
  response : BusResponse
  /-- The model's own: how many resets came before this one; it selects the free values of R34. Log entry 1. -/
  resetCount : Nat
deriving DecidableEq, Repr

/-- Why a step could stop for good: nothing does. "Nothing in the block is `stuck`: every state has a successor for
every host access (performed or refused) and for reset" (93_implementation_defined.md). The faults of R161 are
taken into a next state (R164), and a bus error is a next state (R46), so this inductive has no constructor. -/
inductive Fault where
deriving DecidableEq, Repr

/-- Why the model could give an operation no meaning. -/
inductive Refusal where
  /-- Raised only by an arm of `exec` whose operation has no meaning yet; no arm raises it now. Safe: the model stops. -/
  | notModelled (mnemonic : String)
deriving DecidableEq, Repr

/-- An array of `n` bytes given byte by byte. -/
def byteArray (n : Nat) (f : Nat → Byte) : Vector Byte n := ⟨⟨(List.range n).map f⟩, by simp⟩

/-- STATUS after reset: 0 (R34). -/
def Status.reset : Status :=
  { ckok := false, ckbad := false, seqok := false, seqbad := false, seqx := false, lsv := false, flt := false }

/-- The state right after the reset with number `n` (R34, R180), with the accesses the host will issue after it.
SEQ is 1, ROFF is 0x0C; STATUS, FAULT, FAULTCMD, PLEN, SLEN, SR and REC are zero; FB, PB, MAGIC, LASTSEQ, CKRES and XR
are unspecified and hold the free values of reset `n` (log entry 1). -/
def State.afterReset (n : Nat) (pending : List HostAccess) : State where
  fb := byteArray 512 (Config.resetFb n)
  pb := byteArray 504 (Config.resetPb n)
  status := Status.reset
  faultCode := 0
  faultCmd := 0
  magic := Config.resetMagic n
  seq := 1
  lastSeq := Config.resetLastSeq n
  plen := 0
  roff := 0x0C
  ckres := Config.resetCkres n
  xr := Config.resetXr n
  slen := 0
  sr := Vector.replicate 64 0
  record := Vector.replicate 1024 0
  pending := pending
  response := .none
  resetCount := n

/-- The machine right after its first reset, before the host issues anything (R34). -/
def State.reset : State := State.afterReset 0 []

end Sys2Proof.Machine
end

