-- ==== Sys2Proof/Machine/Ops.lean ====
section
/-! DEFINITION. The named operations over the block's byte arrays and registers, and fault entry (60_exceptions.md
R164). Everything that reads or writes FB, SR, REC or the fault registers goes through these. -/

namespace Sys2Proof.Machine

/-! ## Bytes of an array -/

/-- Byte `i` of an array; 0 past its end, which no rule reads (R48: every field is range-checked first). -/
def byteAt {n : Nat} (v : Vector Byte n) (i : Nat) : Byte := v[i]?.getD 0

/-- The `k` bytes of an array from offset `a` on. -/
def bytesAt {n : Nat} (v : Vector Byte n) (a k : Nat) : List Byte := (v.toList.drop a).take k

/-- The natural a list of bytes stands for, least significant byte first (R7). -/
def natOfBytes : List Byte → Nat
  | [] => 0
  | b :: bs => b.toNat + 256 * natOfBytes bs

/-- `LE(a, k)` of R7: the `k`-byte little-endian unsigned value at offset `a`. -/
def natAt {n : Nat} (v : Vector Byte n) (a k : Nat) : Nat := natOfBytes (bytesAt v a k)

/-- The low `k` bytes of a natural, least significant first (R7, R43). -/
def bytesOfNat : (k : Nat) → (v : Nat) → List Byte
  | 0, _ => []
  | k + 1, v => BitVec.ofNat 8 v :: bytesOfNat k (v / 256)

/-- A list with the bytes from position `o` on replaced by `bs`, as far as the list reaches. -/
def overlay : List Byte → Nat → List Byte → List Byte
  | [], _, _ => []
  | x :: xs, o + 1, bs => x :: overlay xs o bs
  | x :: xs, 0, [] => x :: xs
  | _ :: xs, 0, b :: bs => b :: overlay xs 0 bs

/-- `overlay` keeps the length: a buffer always has its fixed size (R11). -/
theorem overlay_length (l : List Byte) (o : Nat) (bs : List Byte) : (overlay l o bs).length = l.length := by
  fun_induction overlay l o bs <;> simp_all

/-- An array with the bytes from offset `o` on replaced by `bs`. -/
def putBytes {n : Nat} (v : Vector Byte n) (o : Nat) (bs : List Byte) : Vector Byte n :=
  ⟨⟨overlay v.toList o bs⟩, by simp [overlay_length]⟩

/-- An array of `n` bytes, all zero. -/
def zeroBytes (n : Nat) : Vector Byte n := Vector.replicate n 0

/-! ## The frame -/

/-- `W[k]`, word `k` of a frame, little-endian (R7). -/
def wordAt (f : Frame) (k : Nat) : Word := BitVec.ofNat 32 (natAt f (4 * k) 4)

/-- The frame after `W[k] <- w` (R7). -/
def putWord (f : Frame) (k : Nat) (w : Word) : Frame := putBytes f (4 * k) (bytesOfNat 4 w.toNat)

/-- `W[0], ..., W[126]`, the operands of `P_CK` (R81). -/
def checksumWords (f : Frame) : Vector Word 127 := ⟨⟨(List.range 127).map (wordAt f)⟩, by simp⟩

/-- `P_CK(W[0], ..., W[126])` of a frame (R81). -/
def frameChecksum (P : Params) (f : Frame) : Word := P.checksum (checksumWords f)

/-! ## Registers -/

/-- The four verification flags cleared (R25). -/
def clearVerification (st : Status) : Status :=
  { st with ckok := false, ckbad := false, seqok := false, seqbad := false }

/-- Every write to FB: the new contents, and in the same step the verification flags cleared, whatever is written (R25). -/
def writeFb (f : Frame) (s : State) : State := { s with fb := f, status := clearVerification s.status }

/-- `CKRES <- c` (R22). -/
def writeCkres (c : Word) (s : State) : State := { s with ckres := c }

/-- `XR <- v` (R23). -/
def writeXr (v : BitVec 64) (s : State) : State := { s with xr := v }

/-- SR and SLEN take a string result: the bytes, zeros after them, and their number (R24). -/
def writeSr (bs : List Byte) (s : State) : State :=
  { s with sr := putBytes (zeroBytes 64) 0 bs, slen := BitVec.ofNat 32 bs.length }

/-- `REC` takes new contents (R26). -/
def writeRecord (r : Vector Byte 1024) (s : State) : State := { s with record := r }

/-- STATUS takes new flags (R14). -/
def writeStatus (st : Status) (s : State) : State := { s with status := st }

/-! ## Fault entry -/

/-- The number of a fault code (R161). -/
def faultNumber : FaultCode → Byte
  | .eOpc => 1
  | .ePlen => 2
  | .eRange => 3
  | .eSeqx => 4
  | .eLen => 5
  | .eKind => 6

/-- Fault entry, `raise Fault(code)` during command word `c` (R164): FLT, FAULT.CODE and FAULTCMD, and nothing else.
There is no return from it but reset (R166). -/
def takeFault (code : FaultCode) (c : Word) (s : State) : State :=
  { s with status := { s.status with flt := true }, faultCode := faultNumber code, faultCmd := c }

end Sys2Proof.Machine
end

