-- ==== Sys2Proof/Machine/Flags.lean ====
section
/-! DEFINITION. STATUS as a word (10_state.md R14) and the two verdicts written into it (R83, R121). -/

namespace Sys2Proof.Machine

/-- STATUS as the host reads it (R14): bit 0 CKOK, 1 CKBAD, 2 SEQOK, 3 SEQBAD, 4 SEQX, 5 LSV, 7 FLT, the rest 0. -/
def statusWord (st : Status) : Word :=
  BitVec.ofNat 32 (st.ckok.toNat + 2 * st.ckbad.toNat + 4 * st.seqok.toNat + 8 * st.seqbad.toNat
    + 16 * st.seqx.toNat + 32 * st.lsv.toNat + 128 * st.flt.toNat)

/-- FAULT as the host reads it (R15): CODE in bits 7:0, the rest 0. -/
def faultWord (code : Byte) : Word := code.zeroExtend 32

/-- CKVFY's verdict (R83): CKOK and CKBAD, the other flags kept. -/
def checksumVerdict (ok : Bool) (st : Status) : Status := { st with ckok := ok, ckbad := !ok }

/-- SEQCHK's verdict (R121): SEQOK and SEQBAD, the other flags kept. -/
def sequenceVerdict (ok : Bool) (st : Status) : Status := { st with seqok := ok, seqbad := !ok }

end Sys2Proof.Machine
end

