-- ==== Sys2Proof/Machine/Checksum.lean ====
section
/-! DEFINITION. The checksum engine, CE (40_checksum_engine.md): NOP, CKSUM, CKSTAMP, CKVFY. The `...With` operations
take the parameters of R5 as an argument; the meanings apply them to the machine's own. -/

namespace Sys2Proof.Machine

/-- NOP (R80): nothing is read or written. -/
def execNop (s : State) : Host.Outcome State Fault Refusal := .next s

/-- CKSUM (R81): `CKRES <- P_CK(W[0..126])`; FB and the verification flags are kept. -/
def cksumWith (P : Params) (s : State) : State := writeCkres (frameChecksum P s.fb) s

/-- CKSUM (R81). -/
def execCksum (s : State) : Host.Outcome State Fault Refusal := .next (cksumWith Config.params s)

/-- The frame with its checksum written into word 127 (R82). -/
def stampFrame (P : Params) (f : Frame) : Frame := putWord f 127 (frameChecksum P f)

/-- CKSTAMP (R82): CKRES and `W[127]` take the checksum; FB was written, so the verification flags are cleared. -/
def ckstampWith (P : Params) (s : State) : State :=
  writeFb (stampFrame P s.fb) (writeCkres (frameChecksum P s.fb) s)

/-- CKSTAMP (R82). -/
def execCkstamp (s : State) : Host.Outcome State Fault Refusal := .next (ckstampWith Config.params s)

/-- CKVFY (R83): CKRES takes the checksum, CKOK or CKBAD the verdict. A mismatch is no fault (R167). -/
def ckvfyWith (P : Params) (s : State) : State :=
  writeStatus (checksumVerdict (decide (frameChecksum P s.fb = wordAt s.fb 127)) s.status)
    (writeCkres (frameChecksum P s.fb) s)

/-- CKVFY (R83). -/
def execCkvfy (s : State) : Host.Outcome State Fault Refusal := .next (ckvfyWith Config.params s)

end Sys2Proof.Machine
end

