-- ==== Sys2Proof/Machine/Codec.lean ====
section
/-! DEFINITION. The obfuscation codec, OC (41_obfuscation_codec.md): SCR, DSCR. -/

namespace Sys2Proof.Machine

/-- SCR (R90): all 512 bytes through `P_SCR`; the verification flags are cleared. -/
def scrWith (P : Params) (s : State) : State := writeFb (P.scramble s.fb) s

/-- SCR (R90). -/
def execScr (s : State) : Host.Outcome State Fault Refusal := .next (scrWith Config.params s)

/-- DSCR (R91): all 512 bytes through `P_DSCR`; the verification flags are cleared. -/
def dscrWith (P : Params) (s : State) : State := writeFb (P.descramble s.fb) s

/-- DSCR (R91). -/
def execDscr (s : State) : Host.Outcome State Fault Refusal := .next (dscrWith Config.params s)

end Sys2Proof.Machine
end

