-- ==== Sys2Proof/Machine/Operands.lean ====
section
/-! DEFINITION. Fields of the slice: effective address, range check (42_frame_builder_parser.md R101) and the field
kinds with their extents and values (43_response_decoder.md R122). -/

namespace Sys2Proof.Machine

/-- The absolute frame offset of a slice-relative one, `ROFF + o` in the naturals: no wrap-around (R62, R101). -/
def fieldAddr (s : State) (o : Nat) : Nat := s.roff.toNat + o

/-- The range check of R101: a field of `n` bytes at slice offset `o` lies inside FB. -/
def inRange (s : State) (o n : Nat) : Bool := decide (fieldAddr s o + n ≤ 512)

/-- The `n` bytes of a field in frame order: `RAW(o, n)` (R122), GETRAW (R108). -/
def rawField (s : State) (o n : Nat) : List Byte := bytesAt s.fb (fieldAddr s o) n

/-- The `n`-byte little-endian value of a field, a natural: `LE(ROFF + o, n)` (R7, R49). -/
def natField (s : State) (o n : Nat) : Nat := natAt s.fb (fieldAddr s o) n

/-- Adjacent bytes swapped, two at a time (R49 (c)). -/
def swapPairs : List Byte → List Byte
  | a :: b :: rest => b :: a :: swapPairs rest
  | rest => rest

/-- The text of a byte-swapped field: `STR(o, n)` (R122), GETSTR (R107). `n` is even. -/
def strField (s : State) (o n : Nat) : List Byte := swapPairs (rawField s o n)

/-- The byte of a one-byte field (R122). -/
def byteField (s : State) (o : Nat) : Byte := byteAt s.fb (fieldAddr s o)

/-- `FLAG(o, m)` (R122): 1 if the byte has a bit of the mask set, else 0. -/
def flagField (s : State) (o : Nat) (m : Byte) : Byte := if byteField s o &&& m ≠ 0 then 1 else 0

/-- A count of 32 MiB units in bytes: `zext_64(u) * 2^25` (R106, R122). Exact for a 32-bit count. -/
def capacityBytes (units : Nat) : BitVec 64 := BitVec.ofNat 64 (units * 33554432)

/-- A field of a layout, by its kind (R122), with its slice-relative offset. -/
inductive Field where
  | u (o w : Nat)
  | u48 (o : Nat)
  | str (o n : Nat)
  | raw (o n : Nat)
  | flag (o : Nat)
  | cap (o : Nat)
  | enum (o : Nat)
deriving DecidableEq, Repr

/-- The slice-relative offset of a field. -/
def fieldOffset : Field → Nat
  | .u o _ => o
  | .u48 o => o
  | .str o _ => o
  | .raw o _ => o
  | .flag o => o
  | .cap o => o
  | .enum o => o

/-- How many bytes a field reads: the extent column of R122's table. -/
def fieldExtent : Field → Nat
  | .u _ w => w
  | .u48 _ => 6
  | .str _ n => n
  | .raw _ n => n
  | .flag _ => 1
  | .cap _ => 4
  | .enum _ => 1

/-- The decoders' range check: every field of the layout lies inside FB (R120). -/
def allInRange (s : State) (fields : List Field) : Bool :=
  fields.all fun f => inRange s (fieldOffset f) (fieldExtent f)

end Sys2Proof.Machine
end

