-- ==== Sys2Proof/Machine/Decoder.lean ====
section
/-! DEFINITION. The mailbox response decoder, MD (43_response_decoder.md): SEQCHK, DECCHIP, DECRPORT, DECSATA, DECSPORT,
DECSMARTV, DECSMARTT, and the record bank they fill (10_state.md R26 to R33). -/

namespace Sys2Proof.Machine

/-! ## Sequence check -/

/-- SEQCHK (R121): SEQOK if LSV = 1 and `W[1] = LASTSEQ`, else SEQBAD. Informational only; it faults never. -/
def execSeqchk (s : State) : Host.Outcome State Fault Refusal :=
  .next (writeStatus (sequenceVerdict (s.status.lsv && decide (wordAt s.fb 1 = s.lastSeq)) s.status) s)

/-! ## The record bank -/

/-- One field written into REC: its REC offset and its bytes. -/
abbrev RecWrite := Nat × List Byte

/-- REC after a list of field writes, in order. -/
def putFields (r : Vector Byte 1024) (ws : List RecWrite) : Vector Byte 1024 :=
  ws.foldl (fun r w => putBytes r w.1 w.2) r

/-- RKIND (R26). -/
def recordKind (r : Vector Byte 1024) : Nat := natAt r 0x000 4

/-- A numeric field of `k` bytes at REC offset `d`, little-endian (R26). -/
def putNat (d k v : Nat) : RecWrite := (d, bytesOfNat k v)

/-- An enumeration's raw byte at REC offset `d` and its code, from a table of `E.*`, right after it (R28, R30, R122). -/
def putEnum (d : Nat) (table : Byte → Byte) (raw : Byte) : RecWrite := (d, [raw, table raw])

/-- A capacity's units at REC offset `d` and its byte count at `d'` (R28 to R31, R122). -/
def putCapacity (d d' units : Nat) : List RecWrite :=
  [putNat d 4 units, putNat d' 8 (capacityBytes units).toNat]

/-- The header of a fresh record (R26, R120): RKIND, and in RFLAGS bit 0 CKVALID and bit 1 SEQVALID from STATUS. -/
def recordHeader (kind : Nat) (st : Status) : List RecWrite :=
  [putNat 0x000 4 kind, putNat 0x004 4 (st.ckok.toNat + 2 * st.seqok.toNat)]

/-- The common procedure of the five zeroing decoders (R120): E_RANGE unless the range check `ok` holds, else REC is
zeroed, gets its header and is populated. -/
def decodeRecord (i : Instr) (kind : Nat) (ok : Bool) (body : List RecWrite) (s : State) : State :=
  if ok then writeRecord (putFields (zeroBytes 1024) (recordHeader kind s.status ++ body)) s
  else takeFault .eRange (encode i) s

/-! ## ChipInfo -/

/-- The four fields of R123. -/
def chipFields (L : ChipLayout) : List Field := [.u L.fw 4, .raw L.manuf 32, .raw L.product 32, .u L.serial 4]

/-- The ChipInfo record (R27, R124). -/
def chipBody (L : ChipLayout) (s : State) : List RecWrite :=
  [ putNat 0x010 4 (natField s L.fw 4),
    (0x018, rawField s L.manuf 32),
    (0x038, rawField s L.product 32),
    putNat 0x014 4 (natField s L.serial 4) ]

/-- DECCHIP (R124). -/
def decchipWith (P : Params) (s : State) : State :=
  decodeRecord .decchip 1 (allInRange s (chipFields P.chip)) (chipBody P.chip s) s

/-- DECCHIP (R124). -/
def execDecchip (s : State) : Host.Outcome State Fault Refusal := .next (decchipWith Config.params s)

/-! ## RaidPortInfo -/

/-- `mb(i)`, the slice offset of member `i` (R127). -/
def memberBase (L : RaidPortLayout) (i : Nat) : Nat := L.memberBase + 0x20 * i

/-- The five fields of the member at slice offset `b` (R127). -/
def memberFields (M : MemberLayout) (b : Nat) : List Field :=
  [.flag (b + M.ready.off), .flag (b + M.lba48.off), .u (b + M.sataIndex) 1, .u (b + M.baseLba) 4, .cap (b + M.size)]

/-- The eleven fields of R126 and the five of R127 for each of the five members: 36 fields (R128). -/
def raidPortFields (L : RaidPortLayout) (M : MemberLayout) : List Field :=
  [ .str L.model 40, .str L.serial 20, .u L.portState 1, .enum L.level, .raw L.password 8, .enum L.state,
    .u L.memberCount 1, .u L.rebuildPrio 2, .u L.standby.off L.standby.width.bytes,
    .u L.rebuildProgress.off L.rebuildProgress.width.bytes, .cap L.capacity ]
    ++ (List.range 5).flatMap fun i => memberFields M (memberBase L i)

/-- One member record, at REC offset `m` from slice offset `b` (R29, R128). -/
def memberBody (M : MemberLayout) (s : State) (m b : Nat) : List RecWrite :=
  [ (m + 0x00, [flagField s (b + M.ready.off) M.ready.mask]),
    (m + 0x01, [flagField s (b + M.lba48.off) M.lba48.mask]),
    (m + 0x02, [byteField s (b + M.sataIndex)]),
    putNat (m + 0x04) 4 (natField s (b + M.baseLba) 4) ]
    ++ putCapacity (m + 0x08) (m + 0x10) (natField s (b + M.size) 4)

/-- The RaidPortInfo record (R28, R128). All five members are decoded, whatever the member count says. -/
def raidPortBody (L : RaidPortLayout) (M : MemberLayout) (E : EnumTables) (s : State) : List RecWrite :=
  let prio := natField s L.rebuildPrio 2
  let standby := natField s L.standby.off L.standby.width.bytes
  [ (0x010, strField s L.model 40),
    (0x038, strField s L.serial 20),
    (0x04C, [byteField s L.portState]),
    putEnum 0x04D E.raidLevel (byteField s L.level),
    (0x058, rawField s L.password 8),
    putEnum 0x04F E.raidState (byteField s L.state),
    (0x051, [byteField s L.memberCount]),
    putNat 0x052 2 prio,
    (0x054, [E.rebuildBand (BitVec.ofNat 16 prio)]),
    putNat 0x060 4 standby,
    putNat 0x064 4 (standby / 10),
    putNat 0x068 4 (natField s L.rebuildProgress.off L.rebuildProgress.width.bytes) ]
    ++ putCapacity 0x06C 0x070 (natField s L.capacity 4)
    ++ (List.range 5).flatMap fun i => memberBody M s (0x080 + 0x20 * i) (memberBase L i)

/-- DECRPORT (R128). -/
def decrportWith (P : Params) (s : State) : State :=
  decodeRecord .decrport 2 (allInRange s (raidPortFields P.raidPort P.member))
    (raidPortBody P.raidPort P.member P.enums s) s

/-- DECRPORT (R128). -/
def execDecrport (s : State) : Host.Outcome State Fault Refusal := .next (decrportWith Config.params s)

/-! ## SataInfo and SataPortInfo -/

/-- The slice offsets of the nine fields an item and a single port share (R130, R133). -/
structure DiskOffsets where
  model : Nat
  serial : Nat
  capacity : Nat
  portType : Nat
  portSpeed : Nat
  pageState : Nat
  raidIndex : Nat
  memberIndex : Nat
  portNumber : Nat

/-- Item `i` of SataInfo: `it(i) = L.si.base + 0x50 * i`, its fields at their offsets from there (R130). -/
def itemOffsets (L : ItemLayout) (i : Nat) : DiskOffsets :=
  let b := L.base + 0x50 * i
  { model := b + L.model, serial := b + L.serial, capacity := b + L.capacity, portType := b + L.portType,
    portSpeed := b + L.portSpeed, pageState := b + L.pageState, raidIndex := b + L.raidIndex,
    memberIndex := b + L.memberIndex, portNumber := b + L.portNumber }

/-- The nine shared fields of SataPortInfo, at offsets of their own (R133). -/
def portOffsets (L : SataPortLayout) : DiskOffsets :=
  { model := L.model, serial := L.serial, capacity := L.capacity, portType := L.portType, portSpeed := L.portSpeed,
    pageState := L.pageState, raidIndex := L.raidIndex, memberIndex := L.memberIndex, portNumber := L.portNumber }

/-- The nine shared fields (R130, R133). -/
def diskFields (D : DiskOffsets) : List Field :=
  [ .str D.model 40, .str D.serial 20, .cap D.capacity, .enum D.portType, .enum D.portSpeed, .enum D.pageState,
    .u D.raidIndex 1, .u D.memberIndex 1, .u D.portNumber 1 ]

/-- The thirteen record fields an item and a single port share, at REC offset `t` (R30, R31, R131, R134). -/
def diskBody (D : DiskOffsets) (E : EnumTables) (s : State) (t : Nat) : List RecWrite :=
  [ (t + 0x00, strField s D.model 40),
    (t + 0x28, strField s D.serial 20) ]
    ++ putCapacity (t + 0x3C) (t + 0x40) (natField s D.capacity 4)
    ++ [ putEnum (t + 0x48) E.sataPortType (byteField s D.portType),
         putEnum (t + 0x4A) E.sataPortSpeed (byteField s D.portSpeed),
         putEnum (t + 0x4C) E.sataPageState (byteField s D.pageState),
         (t + 0x4E, [byteField s D.raidIndex]),
         (t + 0x4F, [byteField s D.memberIndex]),
         (t + 0x50, [byteField s D.portNumber]) ]

/-- The nine fields of R130 for each of the five items: 45 fields (R131). -/
def sataFields (L : ItemLayout) : List Field := (List.range 5).flatMap fun i => diskFields (itemOffsets L i)

/-- The SataInfo record (R30, R131). All five items are always decoded. -/
def sataBody (L : ItemLayout) (E : EnumTables) (s : State) : List RecWrite :=
  (List.range 5).flatMap fun i => diskBody (itemOffsets L i) E s (0x020 + 0x60 * i)

/-- DECSATA (R131). -/
def decsataWith (P : Params) (s : State) : State :=
  decodeRecord .decsata 3 (allInRange s (sataFields P.item)) (sataBody P.item P.enums s) s

/-- DECSATA (R131). -/
def execDecsata (s : State) : Host.Outcome State Fault Refusal := .next (decsataWith Config.params s)

/-- The eleven fields of R133. -/
def sataPortFields (L : SataPortLayout) : List Field := diskFields (portOffsets L) ++ [.cap L.used, .str L.fw 8]

/-- The SataPortInfo record (R31, R134). -/
def sataPortBody (L : SataPortLayout) (E : EnumTables) (s : State) : List RecWrite :=
  diskBody (portOffsets L) E s 0x020 ++ putCapacity 0x074 0x078 (natField s L.used 4) ++ [(0x080, strField s L.fw 8)]

/-- DECSPORT (R134). -/
def decsportWith (P : Params) (s : State) : State :=
  decodeRecord .decsport 4 (allInRange s (sataPortFields P.sataPort)) (sataPortBody P.sataPort P.enums s) s

/-- DECSPORT (R134). -/
def execDecsport (s : State) : Host.Outcome State Fault Refusal := .next (decsportWith Config.params s)

/-! ## DiskSmartInfo -/

/-- `sl(i)`, the slice offset of SMART slot `i` in either page (R136). -/
def slotOffset (i : Nat) : Nat := 0x16 + 0x0C * i

/-- The REC offset of slot record `i` (R32). -/
def slotRecord (i : Nat) : Nat := 0x020 + 0x10 * i

/-- The single range requirement of the SMART operations: the whole scanned region, `ROFF + 382 <= 512` (R136, R137). -/
def smartInRange (s : State) : Bool := inRange s 0 382

/-- The slot record at REC offset `d` from slice offset `b`; nothing is written where the id byte is 0 (R32, R137). -/
def slotBody (L : SmartLayout) (E : EnumTables) (s : State) (d b : Nat) : List RecWrite :=
  let id := byteField s (b + L.id)
  if id = 0 then []
  else
    [ (d + 0x0, [id, E.smartName id]),
      putNat (d + 0x2) 2 (natField s (b + L.flags) 2),
      (d + 0x4, [byteField s (b + L.cur)]),
      (d + 0x5, [byteField s (b + L.worst)]),
      putNat (d + 0x8) 8 (natField s (b + L.raw) 6) ]

/-- The DiskSmartInfo record of a value page (R32, R137). -/
def smartBody (L : SmartLayout) (E : EnumTables) (s : State) : List RecWrite :=
  (List.range 30).flatMap fun i => slotBody L E s (slotRecord i) (slotOffset i)

/-- DECSMARTV (R137). -/
def decsmartvWith (P : Params) (s : State) : State :=
  decodeRecord .decsmartv 5 (smartInRange s) (smartBody P.smart P.enums s) s

/-- DECSMARTV (R137). -/
def execDecsmartv (s : State) : Host.Outcome State Fault Refusal := .next (decsmartvWith Config.params s)

/-- The threshold of slot record `i`: written where the record's id is nonzero, by position; the threshold page's own
id byte is not read (R138, 90_conflicts.md C5). -/
def thresholdWrite (s : State) (i : Nat) : List RecWrite :=
  if byteAt s.record (slotRecord i) = 0 then []
  else [(slotRecord i + 0x6, [byteField s (slotOffset i + 1)])]

/-- RFLAGS bits 2 to 4, all in REC byte 0x004, after a merge: THRMERGED set, CKVALID2 and SEQVALID2 from STATUS, every
other bit kept (R26, R138). -/
def mergedFlags (old : Byte) (st : Status) : Byte :=
  (old &&& 0xE3) ||| BitVec.ofNat 8 (4 + 8 * st.ckok.toNat + 16 * st.seqok.toNat)

/-- REC after a merge: `thr` fields and RFLAGS bits 2 to 4 only (R33 (c), R138). -/
def mergedRecord (s : State) : Vector Byte 1024 :=
  putFields s.record
    ((List.range 30).flatMap (thresholdWrite s) ++ [(0x004, [mergedFlags (byteAt s.record 0x004) s.status])])

/-- DECSMARTT (R138): E_KIND, then E_RANGE, then the merge. REC is not zeroed. -/
def execDecsmartt (s : State) : Host.Outcome State Fault Refusal :=
  .next (if recordKind s.record ≠ 5 then takeFault .eKind (encode .decsmartt) s
    else if smartInRange s then writeRecord (mergedRecord s) s
    else takeFault .eRange (encode .decsmartt) s)

end Sys2Proof.Machine
end

