-- ==== Sys2Proof/Machine/Frame.lean ====
section
/-! DEFINITION. The frame builder and payload parser, FP (42_frame_builder_parser.md): FBUILD, GETU8, GETU16, GETU32,
GETU48, GETCAP, GETSTR, GETRAW. -/

namespace Sys2Proof.Machine

/-! ## The builder -/

/-- The frame before its stamp (R100, R110): zeros, the magic at word 0, the sequence number at word 1, the payload
from byte 8. -/
def unstampedFrame (magic seq : Word) (payload : List Byte) : Frame :=
  putBytes (putWord (putWord (zeroBytes 512) 0 magic) 1 seq) 8 payload

/-- FBUILD once no test has failed (R100). The payload is `PB[0..PLEN-1]`; bytes it leaves in 508 to 511 are
overwritten by the stamp (90_conflicts.md C1). The counter stops after 0xFFFFFFFF with SEQX set. -/
def buildWith (P : Params) (s : State) : State :=
  let f := unstampedFrame s.magic s.seq (bytesAt s.pb 0 s.plen.toNat)
  let last := decide (s.seq = 0xFFFFFFFF)
  writeFb (stampFrame P f)
    { s with
      ckres := frameChecksum P f
      lastSeq := s.seq
      seq := if last then 0 else s.seq + 1
      status := { s.status with lsv := true, seqx := s.status.seqx || last } }

/-- FBUILD (R100): E_SEQX, then E_PLEN, then the build. -/
def fbuildWith (P : Params) (s : State) : State :=
  if s.status.seqx then takeFault .eSeqx (encode .fbuild) s
  else if 504 < s.plen.toNat then takeFault .ePlen (encode .fbuild) s
  else buildWith P s

/-- FBUILD (R100). -/
def execFbuild (s : State) : Host.Outcome State Fault Refusal := .next (fbuildWith Config.params s)

/-! ## The parser -/

/-- A numeric extraction `i` of `n` bytes at OFF (R101): E_RANGE, or XR takes a function of the value read. -/
def getNumber (i : Instr) (off n : Nat) (result : Nat → BitVec 64) (s : State) : State :=
  if inRange s off n then writeXr (result (natField s off n)) s else takeFault .eRange (encode i) s

/-- GETU8 (R102). -/
def execGetu8 (off : Nat) (s : State) : Host.Outcome State Fault Refusal :=
  .next (getNumber (.getu8 off) off 1 (BitVec.ofNat 64) s)

/-- GETU16 (R103). -/
def execGetu16 (off : Nat) (s : State) : Host.Outcome State Fault Refusal :=
  .next (getNumber (.getu16 off) off 2 (BitVec.ofNat 64) s)

/-- GETU32 (R104). -/
def execGetu32 (off : Nat) (s : State) : Host.Outcome State Fault Refusal :=
  .next (getNumber (.getu32 off) off 4 (BitVec.ofNat 64) s)

/-- GETU48 (R105). -/
def execGetu48 (off : Nat) (s : State) : Host.Outcome State Fault Refusal :=
  .next (getNumber (.getu48 off) off 6 (BitVec.ofNat 64) s)

/-- GETCAP (R106): the 32-bit count of units, scaled to bytes. -/
def execGetcap (off : Nat) (s : State) : Host.Outcome State Fault Refusal :=
  .next (getNumber (.getcap off) off 4 capacityBytes s)

/-- A string extraction `i` of `len` bytes at OFF: E_LEN, then E_RANGE, or SR and SLEN take the bytes (R107, R108). -/
def getBytes (i : Instr) (off len : Nat) (legal : Bool) (bytes : List Byte) (s : State) : State :=
  if !legal then takeFault .eLen (encode i) s
  else if inRange s off len then writeSr bytes s
  else takeFault .eRange (encode i) s

/-- The lengths GETSTR takes: 2 to 64 and even (R107). -/
def strLenOk (len : Nat) : Bool := decide (2 ≤ len ∧ len ≤ 64 ∧ len % 2 = 0)

/-- The lengths GETRAW takes: 1 to 64 (R108). -/
def rawLenOk (len : Nat) : Bool := decide (1 ≤ len ∧ len ≤ 64)

/-- GETSTR (R107): the swap is done in the copy, FB is not changed. -/
def execGetstr (off len : Nat) (s : State) : Host.Outcome State Fault Refusal :=
  .next (getBytes (.getstr off len) off len (strLenOk len) (strField s off len) s)

/-- GETRAW (R108). -/
def execGetraw (off len : Nat) (s : State) : Host.Outcome State Fault Refusal :=
  .next (getBytes (.getraw off len) off len (rawLenOk len) (rawField s off len) s)

end Sys2Proof.Machine
end

