-- ==== Sys2Proof/Machine/Dispatch.lean ====
section
/-! DEFINITION. One arm per operation: its meaning. -/

namespace Sys2Proof.Machine

def exec (i : Instr) (s : State) : Host.Outcome State Fault Refusal :=
  match i with
  -- CE, 40_checksum_engine.md
  | .nop => Sys2Proof.Machine.execNop s
  | .cksum => Sys2Proof.Machine.execCksum s
  | .ckstamp => Sys2Proof.Machine.execCkstamp s
  | .ckvfy => Sys2Proof.Machine.execCkvfy s
  -- OC, 41_obfuscation_codec.md
  | .scr => Sys2Proof.Machine.execScr s
  | .dscr => Sys2Proof.Machine.execDscr s
  -- FP, 42_frame_builder_parser.md
  | .fbuild => Sys2Proof.Machine.execFbuild s
  | .getu8 off => Sys2Proof.Machine.execGetu8 off s
  | .getu16 off => Sys2Proof.Machine.execGetu16 off s
  | .getu32 off => Sys2Proof.Machine.execGetu32 off s
  | .getu48 off => Sys2Proof.Machine.execGetu48 off s
  | .getcap off => Sys2Proof.Machine.execGetcap off s
  | .getstr off len => Sys2Proof.Machine.execGetstr off len s
  | .getraw off len => Sys2Proof.Machine.execGetraw off len s
  -- MD, 43_response_decoder.md
  | .seqchk => Sys2Proof.Machine.execSeqchk s
  | .decchip => Sys2Proof.Machine.execDecchip s
  | .decrport => Sys2Proof.Machine.execDecrport s
  | .decsata => Sys2Proof.Machine.execDecsata s
  | .decsport => Sys2Proof.Machine.execDecsport s
  | .decsmartv => Sys2Proof.Machine.execDecsmartv s
  | .decsmartt => Sys2Proof.Machine.execDecsmartt s

end Sys2Proof.Machine
end

