-- ==== Sys2Proof/Machine/Window.lean ====
section
/-! DEFINITION. The host window (20_memory.md R41 to R47): its map, which accesses are legal, what a read returns and
what a write other than one to CMD does. -/

namespace Sys2Proof.Machine

/-- The rows of R41's table that have storage or, CMD, a port. -/
inductive Area where
  | fb
  | pb
  | cmd
  | status
  | fault
  | faultCmd
  | magic
  | seq
  | lastSeq
  | plen
  | roff
  | ckres
  | xrLo
  | xrHi
  | slen
  | sr
  | record
deriving DecidableEq, Repr

/-- One row of the map (R41). `wordOnly` rows take 4-byte accesses only (R42 (d)). -/
structure WindowRow where
  start : Nat
  size : Nat
  area : Area
  readable : Bool
  writable : Bool
  wordOnly : Bool
deriving DecidableEq, Repr

/-- The map of R41. Every offset in no row is reserved and has no storage. -/
def windowMap : List WindowRow :=
  [ ⟨0x000, 512, .fb, true, true, false⟩,
    ⟨0x200, 504, .pb, true, true, false⟩,
    ⟨0x400, 4, .cmd, false, true, true⟩,
    ⟨0x404, 4, .status, true, false, true⟩,
    ⟨0x408, 4, .fault, true, false, true⟩,
    ⟨0x40C, 4, .faultCmd, true, false, true⟩,
    ⟨0x410, 4, .magic, true, true, true⟩,
    ⟨0x414, 4, .seq, true, false, true⟩,
    ⟨0x418, 4, .lastSeq, true, false, true⟩,
    ⟨0x41C, 4, .plen, true, true, true⟩,
    ⟨0x420, 4, .roff, true, true, true⟩,
    ⟨0x424, 4, .ckres, true, false, true⟩,
    ⟨0x428, 4, .xrLo, true, false, true⟩,
    ⟨0x42C, 4, .xrHi, true, false, true⟩,
    ⟨0x430, 4, .slen, true, false, true⟩,
    ⟨0x440, 64, .sr, true, false, false⟩,
    ⟨0x800, 1024, .record, true, false, false⟩ ]

/-- The number of bytes of an access (R42). -/
def accessBytes : AccessSize → Nat
  | .byte => 1
  | .half => 2
  | .word => 4

/-- The row all `n` bytes from window offset `off` on lie in (R42 (b)). -/
def rowOf (off n : Nat) : Option WindowRow :=
  windowMap.find? fun r => decide (r.start ≤ off ∧ off + n ≤ r.start + r.size)

/-- The row of an access that is aligned, inside one row and of a size the row permits (R42 (a), (b), (d), R44). -/
def accessRow (off : Nat) (size : AccessSize) : Option WindowRow :=
  if off % accessBytes size = 0 then
    (rowOf off (accessBytes size)).filter fun r => !r.wordOnly || decide (size = .word)
  else none

/-- The area a legal read reaches, and the offset inside it (R42). Reads stay legal while the block is frozen (R47). -/
def legalRead (off : Nat) (size : AccessSize) : Option (Area × Nat) :=
  ((accessRow off size).filter (·.readable)).map fun r => (r.area, off - r.start)

/-- The area a legal write reaches, and the offset inside it (R42). No write is legal while FLT = 1 (R42 (e), R47). -/
def legalWrite (flt : Bool) (off : Nat) (size : AccessSize) : Option (Area × Nat) :=
  if flt then none else ((accessRow off size).filter (·.writable)).map fun r => (r.area, off - r.start)

/-- What a legal read of `n` bytes at offset `rel` of an area returns (R43), zero-extended; it has no side effect (R45).
CMD holds nothing and is never read (R13). -/
def areaRead (s : State) (area : Area) (rel n : Nat) : Word :=
  match area with
  | .fb => BitVec.ofNat 32 (natAt s.fb rel n)
  | .pb => BitVec.ofNat 32 (natAt s.pb rel n)
  | .cmd => 0
  | .status => statusWord s.status
  | .fault => faultWord s.faultCode
  | .faultCmd => s.faultCmd
  | .magic => s.magic
  | .seq => s.seq
  | .lastSeq => s.lastSeq
  | .plen => s.plen
  | .roff => s.roff
  | .ckres => s.ckres
  | .xrLo => s.xr.extractLsb' 0 32
  | .xrHi => s.xr.extractLsb' 32 32
  | .slen => s.slen
  | .sr => BitVec.ofNat 32 (natAt s.sr rel n)
  | .record => BitVec.ofNat 32 (natAt s.record rel n)

/-- `MemRead` (R42, R43): the value, or nothing where the access is a bus error (R46). -/
def windowRead (s : State) (off : Nat) (size : AccessSize) : Option Word :=
  (legalRead off size).map fun a => areaRead s a.1 a.2 (accessBytes size)

/-- What a legal write of the low `n` bytes of `v` at offset `rel` of an area other than CMD does (R43, R45): FB clears
the verification flags (R25), the rest store the value. The areas the host cannot write are left as they are. -/
def areaWrite (area : Area) (rel n : Nat) (v : Word) (s : State) : State :=
  match area with
  | .fb => writeFb (putBytes s.fb rel (bytesOfNat n v.toNat)) s
  | .pb => { s with pb := putBytes s.pb rel (bytesOfNat n v.toNat) }
  | .magic => { s with magic := v }
  | .plen => { s with plen := v }
  | .roff => { s with roff := v }
  | .cmd | .status | .fault | .faultCmd | .seq | .lastSeq | .ckres | .xrLo | .xrHi | .slen | .sr | .record => s

/-- The byte at a window offset of one of the four byte arrays, and nothing where the offset has no byte storage: the
model's read of one byte of memory (R40, R41). -/
def memByte (s : State) (off : Nat) : Option Byte :=
  if off < 0x200 then some (byteAt s.fb off)
  else if 0x200 ≤ off ∧ off < 0x3F8 then some (byteAt s.pb (off - 0x200))
  else if 0x440 ≤ off ∧ off < 0x480 then some (byteAt s.sr (off - 0x440))
  else if 0x800 ≤ off ∧ off < 0xC00 then some (byteAt s.record (off - 0x800))
  else none

/-- The block's memory as a list of (window offset, byte) cells: one cell for every byte of storage. -/
def memCells (s : State) : List Host.Cell :=
  (List.range 4096).filterMap fun off => (memByte s off).map fun b => (off, b)

/-- The canonical form of a cell list: offsets strictly rising. No cell repeats what an unlisted offset reads as, since
an unlisted offset has no storage and reads as nothing. -/
def Memory.wf : List Host.Cell → Bool
  | (a, _) :: (b, w) :: rest => decide (a < b) && Memory.wf ((b, w) :: rest)
  | _ => true

/-- The bus address of a window offset, `BASE + off` (R5, R40). No rule depends on `BASE`. -/
def busAddress (P : Params) (off : Nat) : Nat := P.base + off

end Sys2Proof.Machine
end

