-- ==== Sys2Proof/Machine/Bus.lean ====
section
/-! DEFINITION. One host access (20_memory.md R45, R46, R50), a command word (30_encoding.md R68) and reset
(70_reset_and_hazards.md R180). -/

namespace Sys2Proof.Machine

/-- The bus's answer to an access (R46). -/
def respond (r : BusResponse) (s : State) : State := { s with response := r }

/-- A command word `c` the block has accepted (R68): the operation it encodes, or fault entry with E_OPC. -/
def command (c : Word) (s : State) : Host.Outcome State Fault Refusal :=
  match decode c with
  | .ok i => exec i s
  | .error _ => .next (takeFault .eOpc c s)

/-- A host read: the value, or a bus error; nothing of the block changes (R45, R46). -/
def hostRead (off : Nat) (size : AccessSize) (s : State) : State :=
  match windowRead s off size with
  | some v => respond (.data v) s
  | none => respond .busError s

/-- A host write: a legal one to CMD is a command (R13), a legal one elsewhere stores the value, and an illegal one is a
bus error that changes nothing of the block (R45 to R47). -/
def hostWrite (off : Nat) (size : AccessSize) (v : Word) (s : State) : Host.Outcome State Fault Refusal :=
  match legalWrite s.status.flt off size with
  | none => .next (respond .busError s)
  | some (area, rel) =>
    if area = .cmd then command v (respond .done s)
    else .next (respond .done (areaWrite area rel (accessBytes size) v s))

/-- One host access, or the reset input, in one step (R50, R180). -/
def perform (a : HostAccess) (s : State) : Host.Outcome State Fault Refusal :=
  match a with
  | .read off size => .next (hostRead off size s)
  | .write off size v => hostWrite off size v s
  | .reset => .next (State.afterReset (s.resetCount + 1) s.pending)

/-- The host's next access is taken off the list and performed; with none left the block stays as it is, for it does
nothing on its own (R160, R189). -/
def nextAccess (s : State) : Host.Outcome State Fault Refusal :=
  match s.pending with
  | [] => .next s
  | a :: rest => perform a { s with pending := rest }

end Sys2Proof.Machine
end

