-- ==== Sys2Proof/Machine/Step.lean ====
section
/-! DEFINITION. The step of the machine, and how a command word is placed where the next step takes it. -/

namespace Sys2Proof.Machine

/-- One step: the host's next access (R50). -/
def step (s : State) : Host.Outcome State Fault Refusal := Sys2Proof.Machine.nextAccess s

/-- The state in which the host's next access is the 4-byte write of command word `w` to CMD (R13, R60). The block has
no instruction memory (R2), so this is where a step takes its next operation from. Log entry 3. -/
def State.withFetchWord (s : State) (nbits w : Nat) : State :=
  { s with pending := .write 0x400 .word (BitVec.ofNat 32 (w % 2 ^ nbits)) :: s.pending }

end Sys2Proof.Machine
end

