-- ==== Sys2Proof/Safety.lean ====
section
/-! DEFINITION. What counts as a good state of the block (60_exceptions.md R165, 70_reset_and_hazards.md R189) and the
invariants of 10_state.md R24, R33 and R37, in the terms the statements use. -/

namespace Sys2Proof.Machine

/-- A good state: the block is not frozen, `FLT = 0` (R165, R189). -/
def Good (s : State) : Prop := s.status.flt = false

/-- The two flag pairs are exclusive (R14, R37 (a)). -/
structure VerdictsExclusive (s : State) : Prop where
  checksum : ¬(s.status.ckok = true ∧ s.status.ckbad = true)
  sequence : ¬(s.status.seqok = true ∧ s.status.seqbad = true)

/-- CKOK and SEQOK speak of the frame FB holds now (R25, R37 (b), (c)). -/
structure VerdictsSound (s : State) : Prop where
  checksum : s.status.ckok = true → frameChecksum Config.params s.fb = wordAt s.fb 127
  sequence : s.status.seqok = true → s.status.lsv = true ∧ wordAt s.fb 1 = s.lastSeq

/-- SR holds SLEN bytes, at most 64, and zeros after them (R24, R37 (d)). -/
structure StringTailZero (s : State) : Prop where
  length : s.slen.toNat ≤ 64
  tail : ∀ i, s.slen.toNat ≤ i → i < 64 → byteAt s.sr i = 0

/-- The sequence counter against LASTSEQ, LSV and SEQX (R37 (e), (f), (i)). -/
structure SequenceShape (s : State) : Prop where
  fresh : s.status.lsv = false → s.seq = 1 ∧ s.status.seqx = false
  exhausted : s.status.seqx = true → s.seq = 0 ∧ s.status.lsv = true
  next : s.status.lsv = true → s.status.seqx = false → s.seq = s.lastSeq + 1 ∧ 2 ≤ s.seq.toNat

/-- The fault registers against FLT (R37 (g)). -/
structure FaultShape (s : State) : Prop where
  running : s.status.flt = false → s.faultCode = 0 ∧ s.faultCmd = 0
  frozen : s.status.flt = true → 1 ≤ s.faultCode.toNat ∧ s.faultCode.toNat ≤ 6

/-! ## The record bank -/

/-- The bytes of REC that the rule for a kind names, as (REC offset, length), the reserved ones left out: the header
(R26) and the body (R27 to R32). -/
def recordExtents (kind : Nat) : List (Nat × Nat) :=
  match kind with
  | 1 => [(0x000, 8), (0x010, 72)]
  | 2 => [(0x000, 8), (0x010, 69), (0x058, 32)]
    ++ (List.range 5).flatMap fun i =>
      [(0x080 + 0x20 * i, 3), (0x084 + 0x20 * i, 8), (0x090 + 0x20 * i, 8)]
  | 3 => [(0x000, 8)] ++ (List.range 5).map fun i => (0x020 + 0x60 * i, 81)
  | 4 => [(0x000, 8), (0x020, 81), (0x074, 20)]
  | 5 => [(0x000, 8)] ++ (List.range 30).flatMap fun i => [(0x020 + 0x10 * i, 7), (0x028 + 0x10 * i, 8)]
  | _ => []

/-- Whether the rule for a kind names a byte of REC. -/
def recordNames (kind off : Nat) : Bool :=
  (recordExtents kind).any fun e => decide (e.1 ≤ off ∧ off < e.1 + e.2)

/-- RFLAGS (R26). -/
def recordFlags (r : Vector Byte 1024) : Nat := natAt r 0x004 4

/-- REC satisfies R26, R32 and R33: a legal kind and legal flags; every byte the kind's rule does not name is zero (for
kind 0, NONE, that is all of REC); and in a SMART record an absent slot is all zero, bits 63:48 of `raw` are zero, and
every threshold is zero until thresholds are merged. -/
structure RecordShape (r : Vector Byte 1024) : Prop where
  kind : recordKind r ≤ 5
  flags : recordFlags r < 32
  merged : recordKind r ≠ 5 → recordFlags r < 4
  unnamed : ∀ off < 1024, recordNames (recordKind r) off = false → byteAt r off = 0
  absent : recordKind r = 5 → ∀ i < 30, byteAt r (slotRecord i) = 0 → ∀ j < 16, byteAt r (slotRecord i + j) = 0
  raw48 : recordKind r = 5 → ∀ i < 30, byteAt r (slotRecord i + 14) = 0 ∧ byteAt r (slotRecord i + 15) = 0
  unmerged : recordKind r = 5 → recordFlags r / 4 % 2 = 0 → ∀ i < 30, byteAt r (slotRecord i + 6) = 0

/-- The invariants of R37 together. -/
structure Inv (s : State) : Prop where
  exclusive : VerdictsExclusive s
  sound : VerdictsSound s
  tail : StringTailZero s
  sequence : SequenceShape s
  fault : FaultShape s
  record : RecordShape s.record

end Sys2Proof.Machine
end

