-- ==== Sys2Proof/Certificates/Slice0/Obligations.lean ====
section
/-! DEFINITION. The statements for the provers, one `def Obligations.<Name> : Prop` each, and the few terms they share.
Each statement about an operation says where it completes: its conclusion is that `exec` answers a next state. The
parameters of R5 appear as `Config.params`, of which only R5's constraints are known. -/

open Sys2Proof Sys2Proof.Machine

/-! ## Terms the statements share -/

namespace Sys2Proof.Machine

/-- Words 0 to 126 of a frame, each from its four bytes, the last the most significant (R7). -/
def FrameWords (f : Frame) (ws : Vector Word 127) : Prop :=
  ∀ k (h : k < 127), ws[k] = byteAt f (4 * k + 3) ++ byteAt f (4 * k + 2) ++ byteAt f (4 * k + 1) ++ byteAt f (4 * k)

/-- A frame's word 127 holds `w`, byte by byte (R110). -/
def HoldsChecksum (f : Frame) (w : Word) : Prop :=
  byteAt f 508 = w.extractLsb' 0 8 ∧ byteAt f 509 = w.extractLsb' 8 8 ∧ byteAt f 510 = w.extractLsb' 16 8 ∧
  byteAt f 511 = w.extractLsb' 24 8

/-- The opcodes of format N, of format O and of format S (R61, R63). -/
def opcodesN : List Nat := [0x00, 0x01, 0x02, 0x03, 0x10, 0x11, 0x20, 0x40, 0x41, 0x42, 0x43, 0x44, 0x45, 0x46]
def opcodesO : List Nat := [0x30, 0x31, 0x32, 0x33, 0x34]
def opcodesS : List Nat := [0x35, 0x36]

/-- An illegal command word, case by case as R64 lists them: OPC is bits 31:24, LEN 23:16, ZERO 15:9, OFF 8:0. -/
abbrev IllegalWord (c : Word) : Prop :=
  (c.extractLsb' 24 8).toNat ∉ opcodesN ++ opcodesO ++ opcodesS ∨ c.extractLsb' 9 7 ≠ 0 ∨
  ((c.extractLsb' 24 8).toNat ∈ opcodesN ∧ (c.extractLsb' 16 8 ≠ 0 ∨ c.extractLsb' 0 9 ≠ 0)) ∨
  ((c.extractLsb' 24 8).toNat ∈ opcodesO ∧ c.extractLsb' 16 8 ≠ 0)

/-- The legal reads of R42: aligned, inside FB, PB, SR or REC, or a 4-byte read of a register from STATUS to SLEN. -/
abbrev ReadLegal (off n : Nat) : Prop :=
  off % n = 0 ∧ (off + n ≤ 0x3F8 ∨ (0x440 ≤ off ∧ off + n ≤ 0x480) ∨ (0x800 ≤ off ∧ off + n ≤ 0xC00) ∨
    (n = 4 ∧ 0x404 ≤ off ∧ off + n ≤ 0x434))

/-- The writes R42 permits when FLT = 0: aligned, inside FB or PB, or a 4-byte write of CMD, MAGIC, PLEN or ROFF. -/
abbrev WriteLegal (off n : Nat) : Prop :=
  off % n = 0 ∧ (off + n ≤ 0x3F8 ∨ (n = 4 ∧ (off = 0x400 ∨ off = 0x410 ∨ off = 0x41C ∨ off = 0x420)))

/-- The state after fault entry with a code's number during a command word (R164): three writes and nothing else. -/
def Faulted (s : State) (code : Byte) (c : Word) : State :=
  { s with status := { s.status with flt := true }, faultCode := code, faultCmd := c }

/-- What a numeric extraction does (R101): its command word is `word + off`; in range, XR takes the value of the frame from
`ROFF + OFF` on, the sum taken in the naturals, and nothing else changes; out of range it is E_RANGE. -/
def ExtractsNumber (mk : Nat → Instr) (word n : Nat) (value : Frame → Nat → BitVec 64) : Prop :=
  ∀ off ≤ 511, decode (BitVec.ofNat 32 (word + off)) = .ok (mk off) ∧
    ∀ s : State, s.status.flt = false →
      (s.roff.toNat + off + n ≤ 512 →
        exec (mk off) s = .next { s with xr := value s.fb (s.roff.toNat + off) }) ∧
      (512 < s.roff.toNat + off + n → exec (mk off) s = .next (Faulted s 3 (BitVec.ofNat 32 (word + off))))

/-- The fault codes an operation can raise (R162). -/
def possibleFaults : Instr → List Byte
  | .nop | .cksum | .ckstamp | .ckvfy | .scr | .dscr | .seqchk => []
  | .fbuild => [4, 2]
  | .getu8 _ | .getu16 _ | .getu32 _ | .getu48 _ | .getcap _ => [3]
  | .getstr _ _ | .getraw _ _ => [5, 3]
  | .decchip | .decrport | .decsata | .decsport | .decsmartv => [3]
  | .decsmartt => [6, 3]

/-- Every field of a layout lies inside FB (R101, R120). -/
abbrev FieldsInFrame (s : State) (fields : List Field) : Prop :=
  ∀ f ∈ fields, s.roff.toNat + fieldOffset f + fieldExtent f ≤ 512

/-- `n` bytes of an array from `d` on are the frame's from `a` on, in frame order (R49 (d)). -/
def CopiedText {m : Nat} (r : Vector Byte m) (d : Nat) (f : Frame) (a n : Nat) : Prop :=
  ∀ j < n, byteAt r (d + j) = byteAt f (a + j)

/-- `n` bytes of an array from `d` on are the frame's from `a` on, swapped in pairs (R49 (c)). -/
def SwappedText {m : Nat} (r : Vector Byte m) (d : Nat) (f : Frame) (a n : Nat) : Prop :=
  ∀ j, 2 * j + 1 < n →
    byteAt r (d + 2 * j) = byteAt f (a + 2 * j + 1) ∧ byteAt r (d + 2 * j + 1) = byteAt f (a + 2 * j)

/-- A fresh record's header, and zeros wherever its kind's rule names nothing (R26, R33 (a), R120). -/
def FreshRecord (r : Vector Byte 1024) (kind : Nat) (st : Status) : Prop :=
  natAt r 0x000 4 = kind ∧ natAt r 0x004 4 = st.ckok.toNat + 2 * st.seqok.toNat ∧
  ∀ off < 1024, recordNames kind off = false → byteAt r off = 0

/-- What a decoder does where its fields lie inside FB: `good` relates the parameters, the state before and the state after.
R5 lets a layout put a field past every slice (log entry 5), so whether the fields ever lie inside FB is for the parameters
to say. The first clause is over all parameters, R126's example layout L0 among them, and speaks of the operation `op` at
those; the second is over the machine's own, and says that `exec` answers such a next state. -/
def DecoderResult (i : Instr) (op : Params → State → State) (fields : Params → List Field)
    (good : Params → State → State → Prop) : Prop :=
  (∀ (P : Params) (s : State), s.status.flt = false → FieldsInFrame s (fields P) → good P s (op P s)) ∧
  ∀ s : State, s.status.flt = false → FieldsInFrame s (fields Config.params) →
    ∃ t, exec i s = .next t ∧ good Config.params s t

/-- The five zeroing decoders, each with its operation at given parameters (R33, R120). -/
def zeroingDecoders : List (Instr × (Params → State → State)) :=
  [ (.decchip, decchipWith), (.decrport, decrportWith), (.decsata, decsataWith), (.decsport, decsportWith),
    (.decsmartv, decsmartvWith) ]

/-- The thirteen record fields of an item or a single port, at REC offset `b` (R30, R31). -/
def DiskRecord (r : Vector Byte 1024) (b : Nat) (s : State) (D : DiskOffsets) (E : EnumTables) : Prop :=
  SwappedText r b s.fb (fieldAddr s D.model) 40 ∧ SwappedText r (b + 0x28) s.fb (fieldAddr s D.serial) 20 ∧
  natAt r (b + 0x3C) 4 = natAt s.fb (fieldAddr s D.capacity) 4 ∧
  natAt r (b + 0x40) 8 = natAt s.fb (fieldAddr s D.capacity) 4 * 33554432 ∧
  byteAt r (b + 0x48) = byteAt s.fb (fieldAddr s D.portType) ∧
  byteAt r (b + 0x49) = E.sataPortType (byteAt s.fb (fieldAddr s D.portType)) ∧
  byteAt r (b + 0x4A) = byteAt s.fb (fieldAddr s D.portSpeed) ∧
  byteAt r (b + 0x4B) = E.sataPortSpeed (byteAt s.fb (fieldAddr s D.portSpeed)) ∧
  byteAt r (b + 0x4C) = byteAt s.fb (fieldAddr s D.pageState) ∧
  byteAt r (b + 0x4D) = E.sataPageState (byteAt s.fb (fieldAddr s D.pageState)) ∧
  byteAt r (b + 0x4E) = byteAt s.fb (fieldAddr s D.raidIndex) ∧
  byteAt r (b + 0x4F) = byteAt s.fb (fieldAddr s D.memberIndex) ∧
  byteAt r (b + 0x50) = byteAt s.fb (fieldAddr s D.portNumber)

end Sys2Proof.Machine

/-! ## Encoding -/

/-- R61 to R66: decoding the encoding of a well-formed operation gives the operation back, every operand included. -/
def Obligations.DecodeOfEncode : Prop := ∀ i : Instr, i.wf = true → decode (encode i) = .ok i

/-- R68: a word decodes to one operation only, whose encoding is that word; no bit of a word is dropped. -/
def Obligations.EncodeOfDecode : Prop := ∀ (c : Word) (i : Instr), decode c = .ok i → i.wf = true ∧ encode i = c

/-- R61: a word selects the row of `i` exactly where `c AND mask = match`. -/
def Obligations.DecodeByMaskAndMatch : Prop :=
  ∀ (c : Word) (i : Instr),
    c &&& rowMask i = rowMatch i ↔ ∃ j, decode c = .ok j ∧ mnemonic j = mnemonic i

/-- R64: writing an illegal word to CMD of a running block is the fault E_OPC with the word in FAULTCMD, and nothing executes.
`pending` and `response` are the model's own (log entries 3, 4). -/
def Obligations.IllegalWordsTakeOpcodeFault : Prop :=
  ∀ (s : State) (c : Word) (rest : List HostAccess),
    s.status.flt = false → s.pending = .write 0x400 .word c :: rest → IllegalWord c →
    step s = .next (Faulted { s with pending := rest, response := .done } 1 c)

/-- R68: every word is either illegal or an operation, never both. -/
def Obligations.DecodeIsTotal : Prop :=
  ∀ c : Word, (IllegalWord c ∧ ∃ e, decode c = .error e) ∨ (¬IllegalWord c ∧ ∃ i, decode c = .ok i)

/-- R63: a few words written out from the encoding decode to what they stand for. -/
def Obligations.DecodeSampleWords : Prop :=
  decode 0x02000000 = .ok .ckstamp ∧ decode 0x11000000 = .ok .dscr ∧ decode 0x300001F3 = .ok (.getu8 499) ∧
  decode 0x354001B4 = .ok (.getstr 436 64) ∧ decode 0x46000000 = .ok .decsmartt

/-! ## The step and the host window -/

/-- R13, R68: a write of a legal word to CMD of a running block is `exec` of the decoded operation, after the access is
taken off the list and answered; with `withFetchWord`, the same for any state; with no access, nothing happens.
`pending` and `response` are the model's own (log entries 3, 4). -/
def Obligations.StepRunsDecodedOperation : Prop :=
  (∀ (s : State) (c : Word) (i : Instr) (rest : List HostAccess),
    s.status.flt = false → s.pending = .write 0x400 .word c :: rest → decode c = .ok i →
    step s = exec i { s with pending := rest, response := .done }) ∧
  (∀ (s : State) (w : Nat) (i : Instr),
    s.status.flt = false → w < 2 ^ 32 → decode (BitVec.ofNat 32 w) = .ok i →
    step (s.withFetchWord 32 w) = exec i { s with response := .done }) ∧
  (∀ s : State, s.pending = [] → step s = .next s)

/-- 93_implementation_defined.md: nothing in the block is stuck; every state has a successor.
That a fault and a bus error are next states is the model's reading (log entries 4, 10). -/
def Obligations.EveryStepHasSuccessor : Prop := ∀ s : State, ∃ t, step s = .next t

/-- R42, R45, R46: a legal read answers a value, any other a bus error, and no read changes the block; frozen or not (R47).
That an offset of 4096 or above is a bus error as well is the model's reading of R40 to R42 (log entry 7).
`pending` and `response` are the model's own (log entries 3, 4). -/
def Obligations.HostReadsAnswerOrRefuse : Prop :=
  ∀ (s : State) (off : Nat) (size : AccessSize) (rest : List HostAccess), s.pending = .read off size :: rest →
    (ReadLegal off (accessBytes size) → ∃ v, step s = .next { s with pending := rest, response := .data v }) ∧
    (¬ReadLegal off (accessBytes size) → step s = .next { s with pending := rest, response := .busError })

/-- R42, R46, R47: a write that R42 does not permit, or any write to a frozen block, changes nothing and is a bus error.
That an offset of 4096 or above is a bus error as well is the model's reading of R40 to R42 (log entry 7).
`pending` and `response` are the model's own (log entries 3, 4). -/
def Obligations.IllegalWritesAreRefused : Prop :=
  ∀ (s : State) (off : Nat) (size : AccessSize) (v : Word) (rest : List HostAccess),
    s.pending = .write off size v :: rest → s.status.flt = true ∨ ¬WriteLegal off (accessBytes size) →
    step s = .next { s with pending := rest, response := .busError }

/-- R43: reads of the byte arrays are little-endian, at every width, over one array of bytes.
That the bits of the answer above a 1- or 2-byte value are zeros is the model's reading (log entry 8).
`pending` and `response` are the model's own (log entries 3, 4). -/
def Obligations.ArrayReadsAreLittleEndian : Prop :=
  ∀ (s : State) (off : Nat) (rest : List HostAccess) (b0 b1 b2 b3 : Byte),
    (s.pending = .read off .byte :: rest → memByte s off = some b0 →
      step s = .next { s with pending := rest, response := .data (b0.zeroExtend 32) }) ∧
    (s.pending = .read off .half :: rest → off % 2 = 0 → memByte s off = some b0 → memByte s (off + 1) = some b1 →
      step s = .next { s with pending := rest, response := .data ((b1 ++ b0).zeroExtend 32) }) ∧
    (s.pending = .read off .word :: rest → off % 4 = 0 → memByte s off = some b0 → memByte s (off + 1) = some b1 →
      memByte s (off + 2) = some b2 → memByte s (off + 3) = some b3 →
      step s = .next { s with pending := rest, response := .data (b3 ++ b2 ++ b1 ++ b0) })

/-- R14 to R24, R41: what a 4-byte read of each register returns, STATUS bit by bit.
`pending` and `response` are the model's own (log entries 3, 4). -/
def Obligations.RegisterReads : Prop :=
  ∀ (s : State) (off : Nat) (v : Word) (rest : List HostAccess), s.pending = .read off .word :: rest →
    (off, v) ∈
      [ (0x404, (0 : BitVec 24) ++ BitVec.ofBool s.status.flt ++ (0 : BitVec 1) ++ BitVec.ofBool s.status.lsv
          ++ BitVec.ofBool s.status.seqx ++ BitVec.ofBool s.status.seqbad ++ BitVec.ofBool s.status.seqok
          ++ BitVec.ofBool s.status.ckbad ++ BitVec.ofBool s.status.ckok),
        (0x408, (0 : BitVec 24) ++ s.faultCode), (0x40C, s.faultCmd), (0x410, s.magic), (0x414, s.seq),
        (0x418, s.lastSeq), (0x41C, s.plen), (0x420, s.roff), (0x424, s.ckres), (0x428, s.xr.extractLsb' 0 32),
        (0x42C, s.xr.extractLsb' 32 32), (0x430, s.slen) ] →
    step s = .next { s with pending := rest, response := .data v }

/-- R25, R43, R45: a legal write into FB stores its bytes, leaves every other byte of memory, and clears the four
verification flags whatever it writes.
`pending` and `response` are the model's own (log entries 3, 4). -/
def Obligations.HostWritesToFrameBuffer : Prop :=
  ∀ (s : State) (off : Nat) (size : AccessSize) (v : Word) (rest : List HostAccess),
    s.status.flt = false → s.pending = .write off size v :: rest → off % accessBytes size = 0 →
    off + accessBytes size ≤ 512 →
    ∃ t, step s = .next t ∧
      (∀ j < accessBytes size, byteAt t.fb (off + j) = v.extractLsb' (8 * j) 8) ∧
      (∀ a, a < off ∨ off + accessBytes size ≤ a → memByte t a = memByte s a) ∧
      t = { s with
            fb := t.fb
            status := { s.status with ckok := false, ckbad := false, seqok := false, seqbad := false }
            pending := rest
            response := .done }

/-- R12, R43, R45: a legal write into PB stores its bytes, leaves every other byte of memory, and does nothing else.
`pending` and `response` are the model's own (log entries 3, 4). -/
def Obligations.HostWritesToPayloadBuffer : Prop :=
  ∀ (s : State) (off : Nat) (size : AccessSize) (v : Word) (rest : List HostAccess),
    s.status.flt = false → s.pending = .write off size v :: rest → off % accessBytes size = 0 → 512 ≤ off →
    off + accessBytes size ≤ 0x3F8 →
    ∃ t, step s = .next t ∧
      (∀ j < accessBytes size, byteAt t.pb (off - 512 + j) = v.extractLsb' (8 * j) 8) ∧
      (∀ a, a < off ∨ off + accessBytes size ≤ a → memByte t a = memByte s a) ∧
      t = { s with pb := t.pb, pending := rest, response := .done }

/-- R17, R20, R21, R45: writes to MAGIC, PLEN and ROFF store the value and do nothing else.
`pending` and `response` are the model's own (log entries 3, 4). -/
def Obligations.HostWritesToRegisters : Prop :=
  ∀ (s : State) (v : Word) (rest : List HostAccess), s.status.flt = false →
    (s.pending = .write 0x410 .word v :: rest →
      step s = .next { s with magic := v, pending := rest, response := .done }) ∧
    (s.pending = .write 0x41C .word v :: rest →
      step s = .next { s with plen := v, pending := rest, response := .done }) ∧
    (s.pending = .write 0x420 .word v :: rest →
      step s = .next { s with roff := v, pending := rest, response := .done })

/-- R34: what reset leaves, from any state, the frozen one included; FB, PB, MAGIC, LASTSEQ, CKRES and XR are unspecified
and nothing is said of them. The machine's initial state is such a state.
Reset comes as an access in the model's own list `pending` (log entries 3, 12). -/
def Obligations.ResetLeavesTableValues : Prop :=
  (∀ (s : State) (rest : List HostAccess), s.pending = .reset :: rest →
    ∃ t, step s = .next t ∧ t.status = ⟨false, false, false, false, false, false, false⟩ ∧ t.faultCode = 0 ∧
      t.faultCmd = 0 ∧ t.seq = 1 ∧ t.plen = 0 ∧ t.roff = 0x0000000C ∧ t.slen = 0 ∧ (∀ i < 64, byteAt t.sr i = 0) ∧
      (∀ i < 1024, byteAt t.record i = 0)) ∧
  State.reset.status = ⟨false, false, false, false, false, false, false⟩ ∧ State.reset.faultCode = 0 ∧
  State.reset.faultCmd = 0 ∧ State.reset.seq = 1 ∧ State.reset.plen = 0 ∧ State.reset.roff = 0x0000000C ∧
  State.reset.slen = 0 ∧ (∀ i < 64, byteAt State.reset.sr i = 0) ∧ (∀ i < 1024, byteAt State.reset.record i = 0)

/-- R165, R166: while FLT = 1, a step that is not reset changes nothing of the block; the fault registers keep the first
fault, and only the host's side of the bus moves on.
`pending` and `response` are the model's own (log entries 3, 4). -/
def Obligations.FrozenBlockStaysFrozen : Prop :=
  ∀ s t : State, s.status.flt = true → (∀ rest, s.pending ≠ .reset :: rest) → step s = .next t →
    t = { s with pending := s.pending.tail, response := t.response }

/-! ## CE -/

/-- R80: NOP is the word 0; it reads and writes no state, and the verification flags are kept. -/
def Obligations.NopChangesNothing : Prop :=
  decode 0x00000000 = .ok .nop ∧ ∀ s : State, s.status.flt = false → exec .nop s = .next s

/-- R81: CKSUM is the word 0x01000000; it writes `P_CK` of words 0 to 126 to CKRES and changes nothing else. -/
def Obligations.CksumResult : Prop :=
  decode 0x01000000 = .ok .cksum ∧
  ∀ (s : State) (ws : Vector Word 127), s.status.flt = false → FrameWords s.fb ws →
    exec .cksum s = .next { s with ckres := Config.params.checksum ws }

/-- R82: CKSTAMP is the word 0x02000000; it writes the checksum to CKRES and to bytes 508 to 511 of FB and clears the
verification flags; every other byte of memory and every other register is unchanged. -/
def Obligations.CkstampResult : Prop :=
  decode 0x02000000 = .ok .ckstamp ∧
  ∀ (s : State) (ws : Vector Word 127), s.status.flt = false → FrameWords s.fb ws →
    ∃ t, exec .ckstamp s = .next t ∧ HoldsChecksum t.fb (Config.params.checksum ws) ∧
      (∀ a, a < 508 ∨ 512 ≤ a → memByte t a = memByte s a) ∧
      t = { s with
            fb := t.fb
            ckres := Config.params.checksum ws
            status := { s.status with ckok := false, ckbad := false, seqok := false, seqbad := false } }

/-- R83: CKVFY is the word 0x03000000; it writes the checksum to CKRES and the verdict against word 127 to CKOK and CKBAD;
FB, SEQOK and SEQBAD are kept, and a mismatch is no fault. -/
def Obligations.CkvfyResult : Prop :=
  decode 0x03000000 = .ok .ckvfy ∧
  ∀ (s : State) (ws : Vector Word 127) (w : Word), s.status.flt = false → FrameWords s.fb ws →
    HoldsChecksum s.fb w →
    (Config.params.checksum ws = w →
      exec .ckvfy s = .next { s with ckres := w, status := { s.status with ckok := true, ckbad := false } }) ∧
    (Config.params.checksum ws ≠ w →
      exec .ckvfy s = .next
        { s with ckres := Config.params.checksum ws, status := { s.status with ckok := false, ckbad := true } })

/-- R84 (a), (d): CKRES after CKSUM depends on bytes 0 to 507 of FB alone. -/
def Obligations.CksumIgnoresWord127 : Prop :=
  ∀ s s' t t' : State, (∀ i < 508, byteAt s.fb i = byteAt s'.fb i) → exec .cksum s = .next t →
    exec .cksum s' = .next t' → t.ckres = t'.ckres

/-- R84 (b): CKVFY directly after CKSTAMP finds a match. -/
def Obligations.StampedFrameVerifies : Prop :=
  ∀ s t : State, s.status.flt = false → exec .ckstamp s = .next t →
    ∃ u, exec .ckvfy t = .next u ∧ u.status.ckok = true ∧ u.status.ckbad = false ∧ u.fb = t.fb

/-- R84 (c): stamping twice is stamping once. -/
def Obligations.StampIsIdempotent : Prop :=
  ∀ s t : State, s.status.flt = false → exec .ckstamp s = .next t → exec .ckstamp t = .next t

/-! ## OC -/

/-- R90, R91: SCR and DSCR are the words 0x10000000 and 0x11000000; they put the whole buffer through `P_SCR` and
`P_DSCR`, clear the verification flags and change nothing else. -/
def Obligations.CodecResult : Prop :=
  decode 0x10000000 = .ok .scr ∧ decode 0x11000000 = .ok .dscr ∧
  ∀ s : State, s.status.flt = false →
    exec .scr s = .next
      { s with
        fb := Config.params.scramble s.fb
        status := { s.status with ckok := false, ckbad := false, seqok := false, seqbad := false } } ∧
    exec .dscr s = .next
      { s with
        fb := Config.params.descramble s.fb
        status := { s.status with ckok := false, ckbad := false, seqok := false, seqbad := false } }

/-- R6, R92 (a), (b): SCR then DSCR restores FB exactly, and so does DSCR then SCR, since the 512-byte buffers are finitely
many. -/
def Obligations.CodecRoundTrips : Prop :=
  ∀ s t : State, s.status.flt = false →
    (exec .scr s = .next t → ∃ u, exec .dscr t = .next u ∧ u.fb = s.fb) ∧
    (exec .dscr s = .next t → ∃ u, exec .scr t = .next u ∧ u.fb = s.fb)

/-- R92 (c): a frame built, scrambled, descrambled and verified ends with CKOK = 1 and no fault. -/
def Obligations.BuiltFrameSurvivesCodec : Prop :=
  ∀ s : State, s.status.flt = false → s.status.seqx = false → s.plen.toNat ≤ 504 →
    ∃ t1 t2 t3 t4, exec .fbuild s = .next t1 ∧ exec .scr t1 = .next t2 ∧ exec .dscr t2 = .next t3 ∧
      exec .ckvfy t3 = .next t4 ∧ t3.fb = t1.fb ∧ t4.status.ckok = true ∧ t4.status.ckbad = false ∧
      t4.status.flt = false

/-! ## FP -/

/-- R100: FBUILD is the word 0x20000000. With SEQX = 1 it is E_SEQX whatever PLEN holds, otherwise with PLEN > 504 it is
E_PLEN, and a fault changes nothing but the fault registers, so it consumes no sequence number. Otherwise it builds: the
frame byte by byte, the registers and flags, and every other byte of memory and every other register unchanged. -/
def Obligations.FbuildResult : Prop :=
  decode 0x20000000 = .ok .fbuild ∧
  ∀ s : State, s.status.flt = false →
    (s.status.seqx = true → exec .fbuild s = .next (Faulted s 4 0x20000000)) ∧
    (s.status.seqx = false → 504 < s.plen.toNat → exec .fbuild s = .next (Faulted s 2 0x20000000)) ∧
    (s.status.seqx = false → s.plen.toNat ≤ 504 →
      ∃ (t : State) (ws : Vector Word 127), exec .fbuild s = .next t ∧ FrameWords t.fb ws ∧
        HoldsChecksum t.fb (Config.params.checksum ws) ∧
        (∀ j < 4, byteAt t.fb j = s.magic.extractLsb' (8 * j) 8) ∧
        (∀ j < 4, byteAt t.fb (4 + j) = s.seq.extractLsb' (8 * j) 8) ∧
        (∀ j < 500, byteAt t.fb (8 + j) = if j < s.plen.toNat then byteAt s.pb j else 0) ∧
        (∀ a, 512 ≤ a → memByte t a = memByte s a) ∧
        t = { s with
              fb := t.fb
              ckres := Config.params.checksum ws
              lastSeq := s.seq
              seq := if s.seq = 0xFFFFFFFF then 0 else s.seq + 1
              status := { ckok := false, ckbad := false, seqok := false, seqbad := false,
                          seqx := decide (s.seq = 0xFFFFFFFF), lsv := true, flt := false } })

/-- R100 (b): a payload of 501 to 504 bytes builds the frame and the checksum of its first 500 bytes. -/
def Obligations.FbuildIgnoresPayloadPast500 : Prop :=
  ∀ s t u : State, s.status.flt = false → s.status.seqx = false → 500 < s.plen.toNat → s.plen.toNat ≤ 504 →
    exec .fbuild s = .next t → exec .fbuild { s with plen := 500 } = .next u → t.fb = u.fb ∧ t.ckres = u.ckres

/-- R18, R100 (d): in a state that meets the counter's invariant, each FBUILD that builds uses a number above the last
one, so no sequence number is used twice between resets. -/
def Obligations.SequenceNumbersIncrease : Prop :=
  ∀ s : State, SequenceShape s → s.status.flt = false → s.status.seqx = false → s.plen.toNat ≤ 504 →
    ∃ t, exec .fbuild s = .next t ∧ t.lastSeq = s.seq ∧ 1 ≤ t.lastSeq.toNat ∧
      (s.status.lsv = true → s.lastSeq.toNat < t.lastSeq.toNat)

/-- R102: GETU8 is the word 0x30000000 + OFF; in range it writes the byte to XR, else it is E_RANGE. -/
def Obligations.Getu8Result : Prop := ExtractsNumber .getu8 0x30000000 1 fun f a => (byteAt f a).zeroExtend 64

/-- R103: GETU16 is the word 0x31000000 + OFF; in range it writes the two bytes, the second the more significant, to XR,
else it is E_RANGE. -/
def Obligations.Getu16Result : Prop :=
  ExtractsNumber .getu16 0x31000000 2 fun f a => (byteAt f (a + 1) ++ byteAt f a).zeroExtend 64

/-- R104: GETU32 is the word 0x32000000 + OFF; in range it writes the four bytes, the last the most significant, to XR,
else it is E_RANGE. -/
def Obligations.Getu32Result : Prop :=
  ExtractsNumber .getu32 0x32000000 4 fun f a =>
    (byteAt f (a + 3) ++ byteAt f (a + 2) ++ byteAt f (a + 1) ++ byteAt f a).zeroExtend 64

/-- R105: GETU48 is the word 0x33000000 + OFF; in range it writes the six bytes, the last the most significant, to XR,
else it is E_RANGE. -/
def Obligations.Getu48Result : Prop :=
  ExtractsNumber .getu48 0x33000000 6 fun f a =>
    (byteAt f (a + 5) ++ byteAt f (a + 4) ++ byteAt f (a + 3) ++ byteAt f (a + 2) ++ byteAt f (a + 1)
      ++ byteAt f a).zeroExtend 64

/-- R106: GETCAP is the word 0x34000000 + OFF; in range it writes the four bytes' value times 2^25 to XR, else it is
E_RANGE; the product loses nothing. -/
def Obligations.GetcapResult : Prop :=
  (ExtractsNumber .getcap 0x34000000 4 fun f a =>
    (byteAt f (a + 3) ++ byteAt f (a + 2) ++ byteAt f (a + 1) ++ byteAt f a).zeroExtend 64 * 33554432) ∧
  ∀ u : Word, (u.zeroExtend 64 * 33554432 : BitVec 64).toNat = u.toNat * 2 ^ 25

/-- R107: GETSTR is the word 0x35000000 + LEN * 2^16 + OFF. An illegal LEN is E_LEN wherever the field lies, a legal one
out of range E_RANGE. In range it copies the field into SR swapped in pairs, zeros after it, and its length into SLEN; FB,
the flags and everything else are unchanged. -/
def Obligations.GetstrResult : Prop :=
  ∀ off len : Nat, off ≤ 511 → len ≤ 255 →
    decode (BitVec.ofNat 32 (0x35000000 + len * 0x10000 + off)) = .ok (.getstr off len) ∧
    ∀ s : State, s.status.flt = false →
      (len < 2 ∨ 64 < len ∨ len % 2 = 1 →
        exec (.getstr off len) s = .next (Faulted s 5 (BitVec.ofNat 32 (0x35000000 + len * 0x10000 + off)))) ∧
      (2 ≤ len → len ≤ 64 → len % 2 = 0 → 512 < s.roff.toNat + off + len →
        exec (.getstr off len) s = .next (Faulted s 3 (BitVec.ofNat 32 (0x35000000 + len * 0x10000 + off)))) ∧
      (2 ≤ len → len ≤ 64 → len % 2 = 0 → s.roff.toNat + off + len ≤ 512 →
        ∃ t, exec (.getstr off len) s = .next t ∧ SwappedText t.sr 0 s.fb (s.roff.toNat + off) len ∧
          (∀ i, len ≤ i → i < 64 → byteAt t.sr i = 0) ∧
          (∀ a, a < 0x440 ∨ 0x480 ≤ a → memByte t a = memByte s a) ∧
          t = { s with sr := t.sr, slen := BitVec.ofNat 32 len })

/-- R108: GETRAW is the word 0x36000000 + LEN * 2^16 + OFF. An illegal LEN is E_LEN wherever the field lies, a legal one,
odd ones included, out of range E_RANGE. In range it copies the field into SR in frame order, zeros after it, and its length
into SLEN; everything else is unchanged. -/
def Obligations.GetrawResult : Prop :=
  ∀ off len : Nat, off ≤ 511 → len ≤ 255 →
    decode (BitVec.ofNat 32 (0x36000000 + len * 0x10000 + off)) = .ok (.getraw off len) ∧
    ∀ s : State, s.status.flt = false →
      (len < 1 ∨ 64 < len →
        exec (.getraw off len) s = .next (Faulted s 5 (BitVec.ofNat 32 (0x36000000 + len * 0x10000 + off)))) ∧
      (1 ≤ len → len ≤ 64 → 512 < s.roff.toNat + off + len →
        exec (.getraw off len) s = .next (Faulted s 3 (BitVec.ofNat 32 (0x36000000 + len * 0x10000 + off)))) ∧
      (1 ≤ len → len ≤ 64 → s.roff.toNat + off + len ≤ 512 →
        ∃ t, exec (.getraw off len) s = .next t ∧ CopiedText t.sr 0 s.fb (s.roff.toNat + off) len ∧
          (∀ i, len ≤ i → i < 64 → byteAt t.sr i = 0) ∧
          (∀ a, a < 0x440 ∨ 0x480 ≤ a → memByte t a = memByte s a) ∧
          t = { s with sr := t.sr, slen := BitVec.ofNat 32 len })

/-! ## MD -/

/-- R121: SEQCHK is the word 0x40000000; it sets SEQOK exactly when LSV = 1 and bytes 4 to 7 of FB are LASTSEQ, else
SEQBAD, and changes nothing else; it never faults. -/
def Obligations.SeqchkResult : Prop :=
  decode 0x40000000 = .ok .seqchk ∧
  ∀ (s : State) (w : Word), s.status.flt = false →
    w = byteAt s.fb 7 ++ byteAt s.fb 6 ++ byteAt s.fb 5 ++ byteAt s.fb 4 →
    (s.status.lsv = true ∧ w = s.lastSeq →
      exec .seqchk s = .next { s with status := { s.status with seqok := true, seqbad := false } }) ∧
    (s.status.lsv = false ∨ w ≠ s.lastSeq →
      exec .seqchk s = .next { s with status := { s.status with seqok := false, seqbad := true } })

/-- R27, R123, R124: DECCHIP with its fields in range fills REC with a ChipInfo record and changes nothing else. -/
def Obligations.DecchipResult : Prop :=
  DecoderResult .decchip decchipWith (fun P => chipFields P.chip) fun P s t =>
    t = { s with record := t.record } ∧ FreshRecord t.record 1 s.status ∧
    natAt t.record 0x010 4 = natAt s.fb (fieldAddr s P.chip.fw) 4 ∧
    natAt t.record 0x014 4 = natAt s.fb (fieldAddr s P.chip.serial) 4 ∧
    CopiedText t.record 0x018 s.fb (fieldAddr s P.chip.manuf) 32 ∧
    CopiedText t.record 0x038 s.fb (fieldAddr s P.chip.product) 32

/-- R28, R126, R128: DECRPORT with its 36 fields in range fills REC with a RaidPortInfo record and changes nothing else:
the port's own fields. The members are the next statement's. -/
def Obligations.DecrportResult : Prop :=
  DecoderResult .decrport decrportWith (fun P => raidPortFields P.raidPort P.member) fun P s t =>
    ∀ (L : RaidPortLayout) (E : EnumTables), L = P.raidPort → E = P.enums →
      t = { s with record := t.record } ∧ FreshRecord t.record 2 s.status ∧
      SwappedText t.record 0x010 s.fb (fieldAddr s L.model) 40 ∧
      SwappedText t.record 0x038 s.fb (fieldAddr s L.serial) 20 ∧
      byteAt t.record 0x04C = byteAt s.fb (fieldAddr s L.portState) ∧
      byteAt t.record 0x04D = byteAt s.fb (fieldAddr s L.level) ∧
      byteAt t.record 0x04E = E.raidLevel (byteAt s.fb (fieldAddr s L.level)) ∧
      byteAt t.record 0x04F = byteAt s.fb (fieldAddr s L.state) ∧
      byteAt t.record 0x050 = E.raidState (byteAt s.fb (fieldAddr s L.state)) ∧
      byteAt t.record 0x051 = byteAt s.fb (fieldAddr s L.memberCount) ∧
      natAt t.record 0x052 2 = natAt s.fb (fieldAddr s L.rebuildPrio) 2 ∧
      byteAt t.record 0x054 = E.rebuildBand (BitVec.ofNat 16 (natAt s.fb (fieldAddr s L.rebuildPrio) 2)) ∧
      CopiedText t.record 0x058 s.fb (fieldAddr s L.password) 8 ∧
      natAt t.record 0x060 4 = natAt s.fb (fieldAddr s L.standby.off) L.standby.width.bytes ∧
      natAt t.record 0x064 4 = natAt s.fb (fieldAddr s L.standby.off) L.standby.width.bytes / 10 ∧
      natAt t.record 0x068 4 = natAt s.fb (fieldAddr s L.rebuildProgress.off) L.rebuildProgress.width.bytes ∧
      natAt t.record 0x06C 4 = natAt s.fb (fieldAddr s L.capacity) 4 ∧
      natAt t.record 0x070 8 = natAt s.fb (fieldAddr s L.capacity) 4 * 33554432

/-- R29, R127, R128: DECRPORT decodes all five members, whatever the member count says. -/
def Obligations.DecrportMembers : Prop :=
  DecoderResult .decrport decrportWith (fun P => raidPortFields P.raidPort P.member) fun P s t =>
    ∀ i < 5, ∀ (m b : Nat) (M : MemberLayout), M = P.member → m = 0x080 + 0x20 * i →
      b = s.roff.toNat + (P.raidPort.memberBase + 0x20 * i) →
      byteAt t.record m = (if byteAt s.fb (b + M.ready.off) &&& M.ready.mask ≠ 0 then 1 else 0) ∧
      byteAt t.record (m + 0x01) = (if byteAt s.fb (b + M.lba48.off) &&& M.lba48.mask ≠ 0 then 1 else 0) ∧
      byteAt t.record (m + 0x02) = byteAt s.fb (b + M.sataIndex) ∧
      natAt t.record (m + 0x04) 4 = natAt s.fb (b + M.baseLba) 4 ∧
      natAt t.record (m + 0x08) 4 = natAt s.fb (b + M.size) 4 ∧
      natAt t.record (m + 0x10) 8 = natAt s.fb (b + M.size) 4 * 33554432

/-- R30, R130, R131: DECSATA with its 45 fields in range fills REC with all five items and changes nothing else. -/
def Obligations.DecsataResult : Prop :=
  DecoderResult .decsata decsataWith (fun P => sataFields P.item) fun P s t =>
    t = { s with record := t.record } ∧ FreshRecord t.record 3 s.status ∧
    ∀ i < 5, DiskRecord t.record (0x020 + 0x60 * i) s (itemOffsets P.item i) P.enums

/-- R31, R133, R134: DECSPORT with its eleven fields in range fills REC with a SataPortInfo record and changes nothing else. -/
def Obligations.DecsportResult : Prop :=
  DecoderResult .decsport decsportWith (fun P => sataPortFields P.sataPort) fun P s t =>
    t = { s with record := t.record } ∧ FreshRecord t.record 4 s.status ∧
    DiskRecord t.record 0x020 s (portOffsets P.sataPort) P.enums ∧
    natAt t.record 0x074 4 = natAt s.fb (fieldAddr s P.sataPort.used) 4 ∧
    natAt t.record 0x078 8 = natAt s.fb (fieldAddr s P.sataPort.used) 4 * 33554432 ∧
    SwappedText t.record 0x080 s.fb (fieldAddr s P.sataPort.fw) 8

/-- R32, R137, R139 (a): DECSMARTV with the scanned region in range fills REC slot by slot, by position; a slot whose id
byte is 0 is left all zero, and every threshold is 0. -/
def Obligations.DecsmartvResult : Prop :=
  ∀ (s : State) (L : SmartLayout), L = Config.params.smart → s.status.flt = false → s.roff.toNat + 382 ≤ 512 →
    ∃ t, exec .decsmartv s = .next t ∧ t = { s with record := t.record } ∧ FreshRecord t.record 5 s.status ∧
      ∀ i < 30, ∀ d b : Nat, d = 0x020 + 0x10 * i → b = s.roff.toNat + (0x16 + 0x0C * i) →
        (byteAt s.fb (b + L.id) = 0 → ∀ j < 16, byteAt t.record (d + j) = 0) ∧
        (byteAt s.fb (b + L.id) ≠ 0 →
          byteAt t.record d = byteAt s.fb (b + L.id) ∧
          byteAt t.record (d + 0x1) = Config.params.enums.smartName (byteAt s.fb (b + L.id)) ∧
          natAt t.record (d + 0x2) 2 = natAt s.fb (b + L.flags) 2 ∧
          byteAt t.record (d + 0x4) = byteAt s.fb (b + L.cur) ∧
          byteAt t.record (d + 0x5) = byteAt s.fb (b + L.worst) ∧ byteAt t.record (d + 0x6) = 0 ∧
          natAt t.record (d + 0x8) 8 = natAt s.fb (b + L.raw) 6)

/-- R138: DECSMARTT is the word 0x46000000. On any record but a SMART one it is E_KIND wherever ROFF points, on a SMART
record out of range E_RANGE. Otherwise it writes the threshold of each present slot, by position, and RFLAGS bits 2 to 4;
every other byte of memory and everything else is unchanged. -/
def Obligations.DecsmarttResult : Prop :=
  decode 0x46000000 = .ok .decsmartt ∧
  ∀ s : State, s.status.flt = false →
    (natAt s.record 0x000 4 ≠ 5 → exec .decsmartt s = .next (Faulted s 6 0x46000000)) ∧
    (natAt s.record 0x000 4 = 5 → 512 < s.roff.toNat + 382 → exec .decsmartt s = .next (Faulted s 3 0x46000000)) ∧
    (natAt s.record 0x000 4 = 5 → s.roff.toNat + 382 ≤ 512 →
      ∃ t, exec .decsmartt s = .next t ∧ t = { s with record := t.record } ∧
        (∀ i < 30, byteAt t.record (0x026 + 0x10 * i) =
          if byteAt s.record (0x020 + 0x10 * i) = 0 then byteAt s.record (0x026 + 0x10 * i)
          else byteAt s.fb (s.roff.toNat + (0x16 + 0x0C * i) + 1)) ∧
        byteAt t.record 0x004 =
          (byteAt s.record 0x004).extractLsb' 5 3 ++ BitVec.ofBool s.status.seqok ++ BitVec.ofBool s.status.ckok
            ++ (1 : BitVec 1) ++ (byteAt s.record 0x004).extractLsb' 0 2 ∧
        (∀ a, a ≠ 0x804 → (∀ i < 30, a ≠ 0x826 + 0x10 * i) → memByte t a = memByte s a))

/-- R139 (b): DECSMARTV, any host access or accesses that change only FB and STATUS's flags, then DECSMARTT: an absent slot
is still all zero; a present slot has the second frame's threshold and its other fields as DECSMARTV left them. -/
def Obligations.SmartPagesMergeByPosition : Prop :=
  ∀ (s t u : State) (f : Frame) (st : Status), s.status.flt = false → s.roff.toNat + 382 ≤ 512 →
    exec .decsmartv s = .next t → exec .decsmartt { t with fb := f, status := st } = .next u →
    ∀ i < 30, ∀ d : Nat, d = 0x020 + 0x10 * i →
      (byteAt s.fb (s.roff.toNat + (0x16 + 0x0C * i) + Config.params.smart.id) = 0 →
        ∀ j < 16, byteAt u.record (d + j) = 0) ∧
      (byteAt s.fb (s.roff.toNat + (0x16 + 0x0C * i) + Config.params.smart.id) ≠ 0 →
        byteAt u.record (d + 6) = byteAt f (s.roff.toNat + (0x16 + 0x0C * i) + 1) ∧
        ∀ j < 16, j ≠ 6 → byteAt u.record (d + j) = byteAt t.record (d + j))

/-- R101, R120, R164: a decoder with any field outside FB is E_RANGE with its own command word; REC and everything else
but the fault registers are as they were. -/
def Obligations.DecoderRangeFaults : Prop :=
  ∀ s : State, s.status.flt = false →
    (¬FieldsInFrame s (chipFields Config.params.chip) → exec .decchip s = .next (Faulted s 3 0x41000000)) ∧
    (¬FieldsInFrame s (raidPortFields Config.params.raidPort Config.params.member) →
      exec .decrport s = .next (Faulted s 3 0x42000000)) ∧
    (¬FieldsInFrame s (sataFields Config.params.item) → exec .decsata s = .next (Faulted s 3 0x43000000)) ∧
    (¬FieldsInFrame s (sataPortFields Config.params.sataPort) → exec .decsport s = .next (Faulted s 3 0x44000000)) ∧
    (512 < s.roff.toNat + 382 → exec .decsmartv s = .next (Faulted s 3 0x45000000))

/-- R140: the RAID level byte 0x09 is decoded without a fault, raw and to the UNKNOWN code 0xFF. -/
def Obligations.UnknownRaidLevelIsMarked : Prop :=
  DecoderResult .decrport decrportWith (fun P => raidPortFields P.raidPort P.member) fun P s t =>
    byteAt s.fb (fieldAddr s P.raidPort.level) = 0x09 →
    t.status.flt = false ∧ byteAt t.record 0x04D = 0x09 ∧ byteAt t.record 0x04E = 0xFF

/-- R33 (b): nothing of an earlier record survives a zeroing decoder that completes, at any parameters of R5 and at the
machine's own. -/
def Obligations.DecodersForgetTheOldRecord : Prop :=
  ∀ i op, (i, op) ∈ zeroingDecoders →
    (∀ (P : Params) (s : State) (r : Vector Byte 1024), s.status.flt = false → (op P s).status.flt = false →
      op P { s with record := r } = op P s) ∧
    ∀ (s t : State) (r : Vector Byte 1024), s.status.flt = false → exec i s = .next t → t.status.flt = false →
      exec i { s with record := r } = .next t

/-! ## Whole-machine rules -/

/-- R161, R162, R164: whichever command word faults, the state is the one before the command plus the three writes FLT,
FAULT.CODE and FAULTCMD and nothing else: FAULTCMD is that word, and FAULT.CODE is 1, E_OPC, for an illegal word and a code
that R162 gives the decoded operation for a legal one. -/
def Obligations.FaultsArePrecise : Prop :=
  ∀ (c : Word) (s t : State), s.status.flt = false → command c s = .next t → t.status.flt = true →
    ∃ code : Byte, t = Faulted s code c ∧
      ((∃ e, decode c = .error e) ∧ code = 1 ∨ ∃ i, decode c = .ok i ∧ code ∈ possibleFaults i)

/-- R161, R162: an operation that faults does so with a code R162 allows it, and records its own command word. -/
def Obligations.FaultCodesByOperation : Prop :=
  ∀ (i : Instr) (s t : State), s.status.flt = false → exec i s = .next t → t.status.flt = true →
    t.faultCode ∈ possibleFaults i ∧ t.faultCmd = encode i

/-- R18, R19, R100: only FBUILD, by a CMD write to a running block, and reset change SEQ, LASTSEQ, LSV or SEQX.
`pending` and `response` are the model's own (log entries 3, 4). -/
def Obligations.OnlyFbuildMovesTheCounter : Prop :=
  ∀ s t : State, step s = .next t →
    (t.seq = s.seq ∧ t.lastSeq = s.lastSeq ∧ t.status.lsv = s.status.lsv ∧ t.status.seqx = s.status.seqx) ∨
    (∃ rest, s.pending = .reset :: rest) ∨
    (s.status.flt = false ∧ ∃ rest, s.pending = .write 0x400 .word 0x20000000 :: rest)

/-- R11, R12, R24, R26: which operations write which array: FB by CKSTAMP, SCR, DSCR and FBUILD; PB by none; SR by GETSTR
and GETRAW; REC by the six decoders. -/
def Obligations.OperationsWriteOnlyTheirArrays : Prop :=
  ∀ (i : Instr) (s t : State), exec i s = .next t →
    (t.fb ≠ s.fb → i ∈ [Instr.ckstamp, .scr, .dscr, .fbuild]) ∧ t.pb = s.pb ∧
    (t.sr ≠ s.sr ∨ t.slen ≠ s.slen → ∃ off len, i = .getstr off len ∨ i = .getraw off len) ∧
    (t.record ≠ s.record → i ∈ [Instr.decchip, .decrport, .decsata, .decsport, .decsmartv, .decsmartt])

/-- R25: a step that changes any byte of FB leaves the four verification flags 0. -/
def Obligations.FrameChangeClearsVerdicts : Prop :=
  ∀ s t : State, step s = .next t → t.fb ≠ s.fb →
    t.status.ckok = false ∧ t.status.ckbad = false ∧ t.status.seqok = false ∧ t.status.seqbad = false

/-! ## Invariants -/

/-- R37: the state after reset meets every invariant of R37. -/
def Obligations.ResetMeetsInvariants : Prop := Inv State.reset

/-- R25, R37 (a), (b), (c): every step keeps CKOK and SEQOK true of the frame FB holds, and the flag pairs exclusive. -/
def Obligations.StepKeepsVerdicts : Prop :=
  ∀ s t : State, VerdictsExclusive s → VerdictsSound s → step s = .next t → VerdictsExclusive t ∧ VerdictsSound t

/-- R24, R37 (d): every step keeps SR zero past SLEN and SLEN at most 64. -/
def Obligations.StepKeepsStringTail : Prop :=
  ∀ s t : State, StringTailZero s → step s = .next t → StringTailZero t

/-- R37 (e), (f), (i): every step keeps the sequence counter's relation to LASTSEQ, LSV and SEQX. -/
def Obligations.StepKeepsSequenceShape : Prop :=
  ∀ s t : State, SequenceShape s → step s = .next t → SequenceShape t

/-- R37 (g): every step keeps the fault registers' relation to FLT; the codes stay 1 to 6. -/
def Obligations.StepKeepsFaultShape : Prop := ∀ s t : State, FaultShape s → step s = .next t → FaultShape t

/-- R33, R37 (h): every step keeps REC a record of its kind, zero wherever the kind's rule names nothing. -/
def Obligations.StepKeepsRecordShape : Prop :=
  ∀ s t : State, RecordShape s.record → step s = .next t → RecordShape t.record
end

