-- ==== Sys2Proof/Laws/Bytes.lean ====
section
/-! SUPPORT. What the byte operations of Machine/Ops.lean and Machine/Operands.lean do, said once: reads after writes,
and little-endian values and bytes as inverses. -/

namespace Sys2Proof.Machine

/-! ## Reading a byte after `putBytes` -/

theorem overlay_getElem? (l : List Byte) (o : Nat) (bs : List Byte) (i : Nat) :
    (overlay l o bs)[i]? =
      if o ≤ i ∧ i < o + bs.length ∧ i < l.length then bs[i - o]? else l[i]? := by
  induction l generalizing o bs i with
  | nil => simp [overlay]
  | cons x xs ih =>
    cases o with
    | succ o =>
      cases i with
      | zero => simp [overlay]
      | succ i =>
        simp only [overlay, List.getElem?_cons_succ, ih, List.length_cons]
        have : i + 1 - (o + 1) = i - o := by omega
        rw [this]
        congr 1
        simp only [eq_iff_iff]
        omega
    | zero =>
      cases bs with
      | nil => simp [overlay]
      | cons b bs =>
        cases i with
        | zero => simp [overlay]
        | succ i => simp [overlay, ih]

/-- The one read-after-write law of the block's arrays. -/
theorem byteAt_putBytes {n : Nat} (v : Vector Byte n) (o : Nat) (bs : List Byte) (i : Nat) :
    byteAt (putBytes v o bs) i =
      if o ≤ i ∧ i < o + bs.length ∧ i < n then bs[i - o]?.getD 0 else byteAt v i := by
  have h := overlay_getElem? v.toList o bs i
  simp only [Vector.length_toList, Vector.getElem?_toList] at h
  have e : (putBytes v o bs)[i]? = (overlay v.toList o bs)[i]? := by
    simp [putBytes]
  unfold byteAt
  rw [e, h]
  split <;> rfl

theorem byteAt_putBytes_of_out {n : Nat} (v : Vector Byte n) (o : Nat) (bs : List Byte) (i : Nat)
    (h : i < o ∨ o + bs.length ≤ i) : byteAt (putBytes v o bs) i = byteAt v i := by
  rw [byteAt_putBytes, if_neg (by omega)]

theorem byteAt_putBytes_of_in {n : Nat} (v : Vector Byte n) (o : Nat) (bs : List Byte) (i : Nat)
    (h : o ≤ i ∧ i < o + bs.length) (hn : i < n) : byteAt (putBytes v o bs) i = bs[i - o]?.getD 0 := by
  rw [byteAt_putBytes, if_pos (by omega)]

@[simp] theorem byteAt_zeroBytes (n i : Nat) : byteAt (zeroBytes n) i = 0 := by
  unfold byteAt zeroBytes
  rw [Vector.getElem?_replicate]
  split <;> rfl

theorem byteAt_of_lt {n : Nat} (v : Vector Byte n) (i : Nat) (h : i < n) : byteAt v i = v[i] := by
  simp [byteAt, h]

theorem byteAt_of_ge {n : Nat} (v : Vector Byte n) (i : Nat) (h : n ≤ i) : byteAt v i = 0 := by
  simp [byteAt, h]

/-- Two arrays with the same bytes are the same array. -/
theorem eq_of_byteAt_eq {n : Nat} (v w : Vector Byte n) (h : ∀ i < n, byteAt v i = byteAt w i) : v = w := by
  apply Vector.ext
  intro i hi
  have := h i hi
  rwa [byteAt_of_lt v i hi, byteAt_of_lt w i hi] at this

theorem byteAt_byteArray (n : Nat) (f : Nat → Byte) (i : Nat) (h : i < n) : byteAt (byteArray n f) i = f i := by
  simp [byteAt, byteArray, h]

/-! ## Slices -/

theorem bytesAt_length {n : Nat} (v : Vector Byte n) (a k : Nat) (h : a + k ≤ n) : (bytesAt v a k).length = k := by
  simp [bytesAt]; omega

theorem bytesAt_length_le {n : Nat} (v : Vector Byte n) (a k : Nat) : (bytesAt v a k).length ≤ k := by
  simp [bytesAt]

theorem bytesAt_getElem? {n : Nat} (v : Vector Byte n) (a k i : Nat) :
    (bytesAt v a k)[i]? = if i < k then v[a + i]? else none := by
  simp [bytesAt, List.getElem?_take, List.getElem?_drop]

theorem bytesAt_succ {n : Nat} (v : Vector Byte n) (a k : Nat) (h : a < n) :
    bytesAt v a (k + 1) = byteAt v a :: bytesAt v (a + 1) k := by
  unfold bytesAt
  rw [List.drop_eq_getElem_cons (by simpa using h), List.take_succ_cons]
  simp [byteAt_of_lt v a h]

@[simp] theorem bytesAt_zero {n : Nat} (v : Vector Byte n) (a : Nat) : bytesAt v a 0 = [] := by
  simp [bytesAt]

/-- A slice depends only on its own bytes. -/
theorem bytesAt_congr {n : Nat} (v w : Vector Byte n) (a k : Nat)
    (h : ∀ i, a ≤ i → i < a + k → byteAt v i = byteAt w i) : bytesAt v a k = bytesAt w a k := by
  induction k generalizing a with
  | zero => simp
  | succ k ih =>
    by_cases ha : a < n
    · rw [bytesAt_succ v a k ha, bytesAt_succ w a k ha, h a (by omega) (by omega),
        ih (a + 1) fun i h1 h2 => h i (by omega) (by omega)]
    · simp [bytesAt, List.drop_eq_nil_of_le, Nat.le_of_not_lt ha]

theorem natAt_congr {n : Nat} (v w : Vector Byte n) (a k : Nat)
    (h : ∀ i, a ≤ i → i < a + k → byteAt v i = byteAt w i) : natAt v a k = natAt w a k := by
  unfold natAt
  rw [bytesAt_congr v w a k h]

theorem natAt_succ {n : Nat} (v : Vector Byte n) (a k : Nat) (h : a < n) :
    natAt v a (k + 1) = (byteAt v a).toNat + 256 * natAt v (a + 1) k := by
  simp [natAt, bytesAt_succ v a k h, natOfBytes]

@[simp] theorem natAt_zero {n : Nat} (v : Vector Byte n) (a : Nat) : natAt v a 0 = 0 := by
  simp [natAt, natOfBytes]

/-! ## Little-endian values -/

theorem natOfBytes_lt (bs : List Byte) : natOfBytes bs < 256 ^ bs.length := by
  induction bs with
  | nil => simp [natOfBytes]
  | cons b bs ih =>
    have := b.isLt
    simp only [natOfBytes, List.length_cons, Nat.pow_succ]
    omega

/-- `LE(a, k)` is a natural below `2^(8k)` (R7). -/
theorem natAt_lt {n : Nat} (v : Vector Byte n) (a k : Nat) : natAt v a k < 256 ^ k :=
  Nat.lt_of_lt_of_le (natOfBytes_lt _) (Nat.pow_le_pow_right (by omega) (bytesAt_length_le v a k))

@[simp] theorem bytesOfNat_length (k v : Nat) : (bytesOfNat k v).length = k := by
  induction k generalizing v with
  | zero => rfl
  | succ k ih => simp [bytesOfNat, ih]

theorem bytesOfNat_getElem? (k v i : Nat) :
    (bytesOfNat k v)[i]? = if i < k then some (BitVec.ofNat 8 (v / 256 ^ i)) else none := by
  induction k generalizing v i with
  | zero => simp [bytesOfNat]
  | succ k ih =>
    cases i with
    | zero => simp [bytesOfNat]
    | succ i =>
      simp [bytesOfNat, ih, Nat.div_div_eq_div_mul, Nat.pow_succ, Nat.mul_comm]

theorem natOfBytes_bytesOfNat (k v : Nat) : natOfBytes (bytesOfNat k v) = v % 256 ^ k := by
  induction k generalizing v with
  | zero => simp [bytesOfNat, natOfBytes, Nat.mod_one]
  | succ k ih =>
    have e : 256 ^ (k + 1) = 256 * 256 ^ k := by rw [Nat.pow_succ, Nat.mul_comm]
    have b : (BitVec.ofNat 8 v).toNat = v % 256 := BitVec.toNat_ofNat v 8
    rw [bytesOfNat, natOfBytes, ih, b, e, Nat.mod_mul]

theorem bytesOfNat_natOfBytes (bs : List Byte) : bytesOfNat bs.length (natOfBytes bs) = bs := by
  induction bs with
  | nil => rfl
  | cons b bs ih =>
    have h := b.isLt
    simp only [List.length_cons, bytesOfNat, natOfBytes]
    congr 1
    · apply BitVec.eq_of_toNat_eq
      simp
      omega
    · have : (b.toNat + 256 * natOfBytes bs) / 256 = natOfBytes bs := by omega
      rw [this, ih]

/-- Reading back a slice just written. -/
theorem bytesAt_putBytes_same {n : Nat} (v : Vector Byte n) (o : Nat) (bs : List Byte) (h : o + bs.length ≤ n) :
    bytesAt (putBytes v o bs) o bs.length = bs := by
  apply List.ext_getElem?
  intro i
  rw [bytesAt_getElem?]
  by_cases hi : i < bs.length
  · have hb := byteAt_putBytes_of_in v o bs (o + i) (by omega) (by omega)
    have hl : o + i < n := by omega
    rw [byteAt_of_lt _ _ hl] at hb
    simp [hi, hl] at hb ⊢
    exact hb
  · simp [hi]

/-- Reading back a little-endian value just written. -/
theorem natAt_putBytes_same {n : Nat} (v : Vector Byte n) (o k x : Nat) (h : o + k ≤ n) :
    natAt (putBytes v o (bytesOfNat k x)) o k = x % 256 ^ k := by
  have e := bytesAt_putBytes_same v o (bytesOfNat k x) (by simpa using h)
  rw [bytesOfNat_length] at e
  rw [natAt, e, natOfBytes_bytesOfNat]

/-- A value whose bytes were not written keeps its value. -/
theorem natAt_putBytes_of_out {n : Nat} (v : Vector Byte n) (o : Nat) (bs : List Byte) (a k : Nat)
    (h : a + k ≤ o ∨ o + bs.length ≤ a) : natAt (putBytes v o bs) a k = natAt v a k :=
  natAt_congr _ _ _ _ fun i h1 h2 => byteAt_putBytes_of_out v o bs i (by omega)

/-! ## Words of a frame -/

/-- `W[k] <- w` then `W[k]` gives `w` (R7). -/
theorem wordAt_putWord_same (f : Frame) (k : Nat) (w : Word) (h : k < 128) : wordAt (putWord f k w) k = w := by
  unfold wordAt putWord
  rw [natAt_putBytes_same f (4 * k) 4 w.toNat (by omega)]
  apply BitVec.eq_of_toNat_eq
  have := w.isLt
  simp
  omega

/-- `W[k] <- w` leaves every other word (R7). -/
theorem wordAt_putWord_of_ne (f : Frame) (k j : Nat) (w : Word) (h : j ≠ k) : wordAt (putWord f k w) j = wordAt f j := by
  unfold wordAt putWord
  rw [natAt_putBytes_of_out _ _ _ _ _ (by simp; omega)]

/-- A byte appended below a value. -/
theorem toNat_append_byte {w : Nat} (a : BitVec w) (b : Byte) : (a ++ b).toNat = a.toNat * 256 + b.toNat := by
  have h := b.isLt
  rw [BitVec.toNat_append, ← Nat.shiftLeft_add_eq_or_of_lt h, Nat.shiftLeft_eq]

/-- `LE(a, 2)` byte by byte (R103). -/
theorem natAt_two {n : Nat} (v : Vector Byte n) (a : Nat) (h : a + 2 ≤ n) :
    natAt v a 2 = (byteAt v (a + 1) ++ byteAt v a).toNat := by
  rw [natAt_succ _ _ _ (by omega), natAt_succ _ _ _ (by omega), natAt_zero, toNat_append_byte]
  omega

/-- `LE(a, 4)` byte by byte (R104). -/
theorem natAt_four {n : Nat} (v : Vector Byte n) (a : Nat) (h : a + 4 ≤ n) :
    natAt v a 4 = (byteAt v (a + 3) ++ byteAt v (a + 2) ++ byteAt v (a + 1) ++ byteAt v a).toNat := by
  rw [natAt_succ _ _ _ (by omega), natAt_succ _ _ _ (by omega), natAt_succ _ _ _ (by omega),
    natAt_succ _ _ _ (by omega), natAt_zero, toNat_append_byte, toNat_append_byte, toNat_append_byte]
  simp only [Nat.add_assoc, Nat.reduceAdd]
  omega

/-- `W[k]` is the four bytes of the word, the last the most significant (R7). -/
theorem wordAt_eq (f : Frame) (k : Nat) (h : k < 128) :
    wordAt f k = byteAt f (4 * k + 3) ++ byteAt f (4 * k + 2) ++ byteAt f (4 * k + 1) ++ byteAt f (4 * k) := by
  rw [wordAt, natAt_four _ _ (by omega)]
  exact BitVec.ofNat_toNat _ _

/-- The checksum's operands are the words 0 to 126 (R81). -/
theorem checksumWords_getElem (f : Frame) (k : Nat) (h : k < 127) : (checksumWords f)[k] = wordAt f k := by
  simp [checksumWords]

/-- The checksum depends on bytes 0 to 507 only (R84 (a), (d)). -/
theorem frameChecksum_congr (P : Params) (f g : Frame) (h : ∀ i < 508, byteAt f i = byteAt g i) :
    frameChecksum P f = frameChecksum P g := by
  unfold frameChecksum
  congr 1
  apply Vector.ext
  intro k hk
  rw [checksumWords_getElem f k hk, checksumWords_getElem g k hk, wordAt, wordAt,
    natAt_congr f g (4 * k) 4 fun i h1 h2 => h i (by omega)]

/-- Stamping leaves the checksum's operands (R84 (c)). -/
theorem frameChecksum_putWord127 (P : Params) (f : Frame) (w : Word) :
    frameChecksum P (putWord f 127 w) = frameChecksum P f :=
  frameChecksum_congr P _ _ fun i h => byteAt_putBytes_of_out _ _ _ i (by omega)

/-! ## Swapped fields -/

@[simp] theorem swapPairs_length (bs : List Byte) : (swapPairs bs).length = bs.length := by
  fun_induction swapPairs bs <;> simp_all

theorem swapPairs_swapPairs (bs : List Byte) : swapPairs (swapPairs bs) = bs := by
  fun_induction swapPairs bs with
  | case1 a b rest ih => simp [swapPairs, ih]
  | case2 rest h =>
    rcases rest with _ | ⟨a, _ | ⟨b, rest⟩⟩
    · rfl
    · rfl
    · exact absurd rfl (h a b rest)

/-- Text byte `2j` is stored byte `2j+1` (R49 (c)). -/
theorem swapPairs_even (bs : List Byte) (j : Nat) (h : 2 * j + 1 < bs.length) :
    (swapPairs bs)[2 * j]? = bs[2 * j + 1]? := by
  induction j generalizing bs with
  | zero =>
    rcases bs with _ | ⟨a, _ | ⟨b, rest⟩⟩
    · simp at h
    · simp at h
    · simp [swapPairs]
  | succ j ih =>
    rcases bs with _ | ⟨a, _ | ⟨b, rest⟩⟩
    · simp at h
    · simp at h
    · have := ih rest (by simp at h; omega)
      have e1 : 2 * (j + 1) = 2 * j + 1 + 1 := by omega
      rw [e1]
      simpa [swapPairs] using this

/-- Text byte `2j+1` is stored byte `2j` (R49 (c)). -/
theorem swapPairs_odd (bs : List Byte) (j : Nat) (h : 2 * j + 1 < bs.length) :
    (swapPairs bs)[2 * j + 1]? = bs[2 * j]? := by
  induction j generalizing bs with
  | zero =>
    rcases bs with _ | ⟨a, _ | ⟨b, rest⟩⟩
    · simp at h
    · simp at h
    · simp [swapPairs]
  | succ j ih =>
    rcases bs with _ | ⟨a, _ | ⟨b, rest⟩⟩
    · simp at h
    · simp at h
    · have := ih rest (by simp at h; omega)
      have e1 : 2 * (j + 1) + 1 = 2 * j + 1 + 1 + 1 := by omega
      have e2 : 2 * (j + 1) = 2 * j + 1 + 1 := by omega
      rw [e1, e2]
      simpa [swapPairs] using this

/-! ## Capacities -/

/-- The scaling of a 32-bit count, as arithmetic on 64 bits (R106). -/
theorem capacityBytes_eq (u : Word) : capacityBytes u.toNat = u.zeroExtend 64 * 33554432 := by
  apply BitVec.eq_of_toNat_eq
  rw [BitVec.toNat_mul, BitVec.toNat_setWidth, show BitVec.toNat (33554432 : BitVec 64) = 33554432 from rfl,
    capacityBytes, BitVec.toNat_ofNat]
  have := u.isLt
  generalize u.toNat = x at *
  rw [Nat.mod_eq_of_lt (by omega : x < 2 ^ 64)]

/-- The scaling is exact (R106, R109 (d)). -/
theorem capacityBytes_toNat (u : Nat) (h : u < 2 ^ 32) : (capacityBytes u).toNat = u * 33554432 := by
  rw [capacityBytes, BitVec.toNat_ofNat]
  exact Nat.mod_eq_of_lt (by omega)

end Sys2Proof.Machine
end

