-- ==== Sys2Proof/Laws/Decode.lean ====
section
/-! SUPPORT. The fields of a command word built from fields, and the masks of R61 in terms of fields. -/

namespace Sys2Proof

theorem commandWord_toNat (opc len off : Nat) (h1 : opc < 256) (h2 : len < 256) (h3 : off < 512) :
    (commandWord opc len off).toNat = opc * 0x1000000 + len * 0x10000 + off := by
  simp only [commandWord, BitVec.toNat_ofNat]
  omega

theorem opcField_eq (c : Word) : opcField c = c.toNat / 0x1000000 % 256 := by
  simp only [opcField, BitVec.extractLsb'_toNat, Nat.shiftRight_eq_div_pow, Nat.reducePow]

theorem lenField_eq (c : Word) : lenField c = c.toNat / 0x10000 % 256 := by
  simp only [lenField, BitVec.extractLsb'_toNat, Nat.shiftRight_eq_div_pow, Nat.reducePow]

theorem zeroField_eq (c : Word) : zeroField c = c.toNat / 0x200 % 128 := by
  simp only [zeroField, BitVec.extractLsb'_toNat, Nat.shiftRight_eq_div_pow, Nat.reducePow]

theorem offField_eq (c : Word) : offField c = c.toNat % 512 := by
  simp only [offField, BitVec.extractLsb'_toNat, Nat.shiftRight_eq_div_pow, Nat.reducePow, Nat.div_one]

theorem opcField_commandWord (opc len off : Nat) (h1 : opc < 256) (h2 : len < 256) (h3 : off < 512) :
    opcField (commandWord opc len off) = opc := by
  rw [opcField_eq, commandWord_toNat opc len off h1 h2 h3]
  omega

theorem lenField_commandWord (opc len off : Nat) (h1 : opc < 256) (h2 : len < 256) (h3 : off < 512) :
    lenField (commandWord opc len off) = len := by
  rw [lenField_eq, commandWord_toNat opc len off h1 h2 h3]
  omega

theorem zeroField_commandWord (opc len off : Nat) (h1 : opc < 256) (h2 : len < 256) (h3 : off < 512) :
    zeroField (commandWord opc len off) = 0 := by
  rw [zeroField_eq, commandWord_toNat opc len off h1 h2 h3]
  omega

theorem offField_commandWord (opc len off : Nat) (h1 : opc < 256) (h2 : len < 256) (h3 : off < 512) :
    offField (commandWord opc len off) = off := by
  rw [offField_eq, commandWord_toNat opc len off h1 h2 h3]
  omega

/-- A word is its four fields (R61). -/
theorem toNat_eq_fields (c : Word) :
    c.toNat = opcField c * 0x1000000 + lenField c * 0x10000 + zeroField c * 0x200 + offField c := by
  have := c.isLt
  rw [opcField_eq, lenField_eq, zeroField_eq, offField_eq]
  omega

/-- The fields of a word lie in their ranges (R61). -/
theorem field_bounds (c : Word) : opcField c < 256 ∧ lenField c < 256 ∧ zeroField c < 128 ∧ offField c < 512 :=
  ⟨BitVec.isLt _, BitVec.isLt _, BitVec.isLt _, BitVec.isLt _⟩

/-- Format O's mask keeps everything above OFF (R61). -/
theorem and_maskO_toNat (c : Word) : (c &&& (0xFFFFFE00 : Word)).toNat = c.toNat / 512 * 512 := by
  have e : c &&& (0xFFFFFE00 : Word) = (c >>> 9) <<< 9 := by
    ext i hi
    simp only [BitVec.getElem_and, BitVec.getElem_shiftLeft, BitVec.getElem_ushiftRight]
    interval_cases i <;> simp [BitVec.getLsbD_eq_getElem]
  have := c.isLt
  rw [e, BitVec.toNat_shiftLeft, BitVec.toNat_ushiftRight, Nat.shiftLeft_eq, Nat.shiftRight_eq_div_pow]
  simp only [Nat.reducePow] at *
  omega

/-- Format S's mask keeps OPC and ZERO (R61). -/
theorem and_maskS_toNat (c : Word) :
    (c &&& (0xFF00FE00 : Word)).toNat = opcField c * 0x1000000 + zeroField c * 0x200 := by
  have e : c &&& (0xFF00FE00 : Word) = (c >>> 24) <<< 24 ||| ((c <<< 16) >>> 25) <<< 9 := by
    ext i hi
    simp only [BitVec.getElem_and, BitVec.getElem_or, BitVec.getElem_shiftLeft, BitVec.getElem_ushiftRight]
    interval_cases i <;> simp [BitVec.getLsbD_eq_getElem]
  have e2 : (c >>> 24) <<< 24 ||| ((c <<< 16) >>> 25) <<< 9 = (c >>> 24) <<< 24 + ((c <<< 16) >>> 25) <<< 9 := by
    rw [BitVec.add_eq_or_of_and_eq_zero]
    ext i hi
    simp only [BitVec.getElem_and, BitVec.getElem_shiftLeft, BitVec.getElem_ushiftRight]
    interval_cases i <;> simp
  have := c.isLt
  rw [e, e2]
  simp only [opcField, zeroField, BitVec.extractLsb'_toNat, BitVec.toNat_add, BitVec.toNat_shiftLeft,
    BitVec.toNat_ushiftRight, Nat.shiftLeft_eq, Nat.shiftRight_eq_div_pow, Nat.reducePow] at *
  omega

/-! ## Decoding by rows

A word's fields decide what it decodes to. The lemmas speak of any word first: rewriting inside a `commandWord` makes the
kernel unfold its large literals. -/

theorem decode_none (c : Word) (h : opcodeRow (opcField c) = none) : decode c = .error .unassignedOpcode := by
  unfold decode
  rw [h]

theorem decode_zero (c : Word) (row : OpRow) (h : opcodeRow (opcField c) = some row) (hz : zeroField c ≠ 0) :
    decode c = .error .nonzeroZero := by
  unfold decode
  rw [h]
  simp [hz]

theorem decode_n (c : Word) (i : Instr) (h : opcodeRow (opcField c) = some (.n i)) (hz : zeroField c = 0) :
    decode c = if lenField c ≠ 0 ∨ offField c ≠ 0 then .error .nonzeroLenOrOff else .ok i := by
  unfold decode
  rw [h]
  simp [hz]

theorem decode_o (c : Word) (mk : Nat → Instr) (h : opcodeRow (opcField c) = some (.o mk)) (hz : zeroField c = 0) :
    decode c = if lenField c ≠ 0 then .error .nonzeroLen else .ok (mk (offField c)) := by
  unfold decode
  rw [h]
  simp [hz]

theorem decode_s (c : Word) (mk : Nat → Nat → Instr) (h : opcodeRow (opcField c) = some (.s mk))
    (hz : zeroField c = 0) : decode c = .ok (mk (offField c) (lenField c)) := by
  unfold decode
  rw [h]
  simp [hz]

/-- The word of a format N row. -/
theorem decode_commandWord_n (opc : Nat) (i : Instr) (h1 : opc < 256) (hr : opcodeRow opc = some (.n i)) :
    decode (commandWord opc 0 0) = .ok i := by
  have ho := opcField_commandWord opc 0 0 h1 (by omega) (by omega)
  have hz := zeroField_commandWord opc 0 0 h1 (by omega) (by omega)
  have hl := lenField_commandWord opc 0 0 h1 (by omega) (by omega)
  have hf := offField_commandWord opc 0 0 h1 (by omega) (by omega)
  generalize commandWord opc 0 0 = c at *
  rw [decode_n c i (ho ▸ hr) hz, hl, hf]
  rfl

/-- The words of a format O row. -/
theorem decode_commandWord_o (opc off : Nat) (mk : Nat → Instr) (h1 : opc < 256) (h3 : off < 512)
    (hr : opcodeRow opc = some (.o mk)) : decode (commandWord opc 0 off) = .ok (mk off) := by
  have ho := opcField_commandWord opc 0 off h1 (by omega) h3
  have hz := zeroField_commandWord opc 0 off h1 (by omega) h3
  have hl := lenField_commandWord opc 0 off h1 (by omega) h3
  have hf := offField_commandWord opc 0 off h1 (by omega) h3
  generalize commandWord opc 0 off = c at *
  rw [decode_o c mk (ho ▸ hr) hz, hl, hf]
  rfl

/-- The words of a format S row. -/
theorem decode_commandWord_s (opc len off : Nat) (mk : Nat → Nat → Instr) (h1 : opc < 256) (h2 : len < 256)
    (h3 : off < 512) (hr : opcodeRow opc = some (.s mk)) : decode (commandWord opc len off) = .ok (mk off len) := by
  have ho := opcField_commandWord opc len off h1 h2 h3
  have hz := zeroField_commandWord opc len off h1 h2 h3
  have hl := lenField_commandWord opc len off h1 h2 h3
  have hf := offField_commandWord opc len off h1 h2 h3
  generalize commandWord opc len off = c at *
  rw [decode_s c mk (ho ▸ hr) hz, hl, hf]

/-- The row an opcode selects, from the other side: its format's operations encode back to the opcode (R63). -/
theorem opcodeRow_encode (opc : Nat) (row : OpRow) (h : opcodeRow opc = some row) :
    opc < 256 ∧ match row with
      | .n i => i.wf = true ∧ encode i = commandWord opc 0 0
      | .o mk => ∀ off, (mk off).wf = offOk off ∧ encode (mk off) = commandWord opc 0 off
      | .s mk => ∀ off len, (mk off len).wf = (offOk off && lenOk len) ∧ encode (mk off len) = commandWord opc len off := by
  unfold opcodeRow at h
  split at h <;>
    first
    | contradiction
    | (obtain rfl := Option.some.inj h; exact ⟨by decide, rfl, rfl⟩)
    | (obtain rfl := Option.some.inj h; exact ⟨by decide, fun _ => ⟨rfl, rfl⟩⟩)
    | (obtain rfl := Option.some.inj h; exact ⟨by decide, fun _ _ => ⟨rfl, rfl⟩⟩)

/-- Any word with ZERO = 0 is the word of its fields (R61). -/
theorem commandWord_fields (c : Word) (h : zeroField c = 0) : commandWord (opcField c) (lenField c) (offField c) = c := by
  apply BitVec.eq_of_toNat_eq
  obtain ⟨h1, h2, _, h4⟩ := field_bounds c
  rw [commandWord_toNat _ _ _ h1 h2 h4, toNat_eq_fields c, h]
  omega

end Sys2Proof
end

