-- ==== Sys2Proof/Laws/Record.lean ====
section
/-! SUPPORT. What a list of field writes does to REC, said once, and what a zeroing decoder can do. -/

namespace Sys2Proof.Machine

/-- Two field writes touch no common byte. -/
def RecWritesApart (a b : RecWrite) : Prop := a.1 + a.2.length ≤ b.1 ∨ b.1 + b.2.length ≤ a.1

@[simp] theorem putFields_nil (r : Vector Byte 1024) : putFields r [] = r := rfl

@[simp] theorem putFields_cons (r : Vector Byte 1024) (w : RecWrite) (ws : List RecWrite) :
    putFields r (w :: ws) = putFields (putBytes r w.1 w.2) ws := rfl

theorem putFields_append (r : Vector Byte 1024) (ws vs : List RecWrite) :
    putFields r (ws ++ vs) = putFields (putFields r ws) vs := by
  simp [putFields, List.foldl_append]

/-- A byte no field write touches keeps its value. -/
theorem byteAt_putFields_of_out (r : Vector Byte 1024) (ws : List RecWrite) (i : Nat)
    (h : ∀ w ∈ ws, i < w.1 ∨ w.1 + w.2.length ≤ i) : byteAt (putFields r ws) i = byteAt r i := by
  induction ws generalizing r with
  | nil => rfl
  | cons w ws ih =>
    rw [putFields_cons, ih _ fun v hv => h v (List.mem_cons_of_mem _ hv),
      byteAt_putBytes_of_out _ _ _ _ (h w List.mem_cons_self)]

/-- A field write that no later one overlaps is there to be read. -/
theorem bytesAt_putFields_of_mem (r : Vector Byte 1024) (ws : List RecWrite) (hd : ws.Pairwise RecWritesApart)
    (w : RecWrite) (hw : w ∈ ws) (h : w.1 + w.2.length ≤ 1024) :
    bytesAt (putFields r ws) w.1 w.2.length = w.2 := by
  induction ws generalizing r with
  | nil => cases hw
  | cons v ws ih =>
    rw [List.pairwise_cons] at hd
    rw [putFields_cons]
    rcases List.mem_cons.mp hw with rfl | hm
    · rw [bytesAt_congr (putFields (putBytes r w.1 w.2) ws) (putBytes r w.1 w.2) w.1 w.2.length]
      · exact bytesAt_putBytes_same r w.1 w.2 h
      · intro i h1 h2
        apply byteAt_putFields_of_out
        intro u hu
        have := hd.1 u hu
        unfold RecWritesApart at this
        omega
    · exact ih _ hd.2 hm

/-- The same, byte by byte. -/
theorem byteAt_putFields_of_mem (r : Vector Byte 1024) (ws : List RecWrite) (hd : ws.Pairwise RecWritesApart)
    (w : RecWrite) (hw : w ∈ ws) (h : w.1 + w.2.length ≤ 1024) (j : Nat) (hj : j < w.2.length) :
    byteAt (putFields r ws) (w.1 + j) = w.2[j] := by
  have e := bytesAt_putFields_of_mem r ws hd w hw h
  have g : (bytesAt (putFields r ws) w.1 w.2.length)[j]? = w.2[j]? := by rw [e]
  rw [bytesAt_getElem?, if_pos hj, List.getElem?_eq_getElem hj] at g
  simp [byteAt, g]

/-- A little-endian field of REC read back: the value written, cut to the field's width. -/
theorem natAt_putFields_of_mem (r : Vector Byte 1024) (ws : List RecWrite) (hd : ws.Pairwise RecWritesApart)
    (d k v : Nat) (hw : putNat d k v ∈ ws) (h : d + k ≤ 1024) : natAt (putFields r ws) d k = v % 256 ^ k := by
  have e := bytesAt_putFields_of_mem r ws hd (putNat d k v) hw (by simpa [putNat] using h)
  simp only [putNat, bytesOfNat_length] at e
  rw [natAt, e, natOfBytes_bytesOfNat]

/-- What a zeroing decoder can do: fill REC afresh, or fault with E_RANGE (R120). -/
theorem decodeRecord_cases (i : Instr) (kind : Nat) (ok : Bool) (body : List RecWrite) (s t : State)
    (h : decodeRecord i kind ok body s = t) :
    (ok = true ∧ t = writeRecord (putFields (zeroBytes 1024) (recordHeader kind s.status ++ body)) s) ∨
    (ok = false ∧ t = takeFault .eRange (encode i) s) := by
  subst h
  cases ok
  · exact .inr ⟨rfl, rfl⟩
  · exact .inl ⟨rfl, rfl⟩

/-- The range check of one field as arithmetic (R101). -/
theorem inRange_iff (s : State) (o n : Nat) : inRange s o n = true ↔ s.roff.toNat + o + n ≤ 512 := by
  unfold inRange fieldAddr
  exact decide_eq_true_iff

theorem inRange_eq_false_iff (s : State) (o n : Nat) : inRange s o n = false ↔ 512 < s.roff.toNat + o + n := by
  rw [← Bool.not_eq_true, inRange_iff, Nat.not_le]

/-- The range check of a layout as arithmetic (R120). -/
theorem allInRange_iff (s : State) (fields : List Field) :
    allInRange s fields = true ↔ ∀ f ∈ fields, s.roff.toNat + fieldOffset f + fieldExtent f ≤ 512 := by
  simp only [allInRange, List.all_eq_true, inRange_iff]

/-! ## Fields of the slice -/

theorem rawField_length (s : State) (o n : Nat) (h : s.roff.toNat + o + n ≤ 512) : (rawField s o n).length = n :=
  bytesAt_length _ _ _ h

theorem strField_length (s : State) (o n : Nat) (h : s.roff.toNat + o + n ≤ 512) : (strField s o n).length = n := by
  rw [strField, swapPairs_length, rawField_length s o n h]

/-- Byte `j` of `RAW(o, n)` (R122). -/
theorem rawField_getD (s : State) (o n j : Nat) (hj : j < n) :
    (rawField s o n)[j]?.getD 0 = byteAt s.fb (fieldAddr s o + j) := by
  unfold rawField
  rw [bytesAt_getElem?, if_pos hj]
  rfl

/-- Bytes `2j` and `2j+1` of `STR(o, n)` (R122). -/
theorem strField_getD (s : State) (o n j : Nat) (h : s.roff.toNat + o + n ≤ 512) (hj : 2 * j + 1 < n) :
    (strField s o n)[2 * j]?.getD 0 = byteAt s.fb (fieldAddr s o + 2 * j + 1) ∧
    (strField s o n)[2 * j + 1]?.getD 0 = byteAt s.fb (fieldAddr s o + 2 * j) := by
  have l := rawField_length s o n h
  unfold strField
  rw [swapPairs_even _ _ (by omega), swapPairs_odd _ _ (by omega), rawField_getD _ _ _ _ (by omega),
    rawField_getD _ _ _ _ (by omega)]
  exact ⟨rfl, rfl⟩

/-- The value of a field lies below its width. -/
theorem natField_lt (s : State) (o k : Nat) : natField s o k < 256 ^ k := natAt_lt _ _ _

/-! ## Extents

A record body has dozens of field writes. Whether they touch common bytes is a question about their extents, which for a
layout in range are constants: compute the list of extents once by `simp`, and `decide` the rest. -/

/-- Where a field write goes: its REC offset and its length. -/
abbrev writeExtent (w : RecWrite) : Nat × Nat := (w.1, w.2.length)

/-- Two extents have no common byte. -/
abbrev ExtentsApart (a b : Nat × Nat) : Prop := a.1 + a.2 ≤ b.1 ∨ b.1 + b.2 ≤ a.1

theorem pairwise_of_extents (ws : List RecWrite) (es : List (Nat × Nat)) (h : ws.map writeExtent = es)
    (hp : es.Pairwise ExtentsApart) : ws.Pairwise RecWritesApart := by
  rw [← h, List.pairwise_map] at hp
  exact hp

/-- A byte of a fresh record that a field write covers. -/
theorem byteAt_fresh_of_mem (ws : List RecWrite) (hd : ws.Pairwise RecWritesApart) (d : Nat) (bs : List Byte)
    (hw : (d, bs) ∈ ws) (h : d + bs.length ≤ 1024) (j : Nat) (hj : j < bs.length) :
    byteAt (putFields (zeroBytes 1024) ws) (d + j) = bs[j] :=
  byteAt_putFields_of_mem (zeroBytes 1024) ws hd (d, bs) hw h j hj

/-- A number of a fresh record that fits its field. -/
theorem natAt_fresh_of_mem (ws : List RecWrite) (hd : ws.Pairwise RecWritesApart) (d k v : Nat) (hw : putNat d k v ∈ ws)
    (h : d + k ≤ 1024) (hv : v < 256 ^ k) : natAt (putFields (zeroBytes 1024) ws) d k = v := by
  rw [natAt_putFields_of_mem _ _ hd d k v hw h, Nat.mod_eq_of_lt hv]

/-- A byte of a fresh record that no field write covers. -/
theorem byteAt_fresh_of_out (ws : List RecWrite) (es : List (Nat × Nat)) (he : ws.map writeExtent = es) (off : Nat)
    (h : ∀ e ∈ es, off < e.1 ∨ e.1 + e.2 ≤ off) : byteAt (putFields (zeroBytes 1024) ws) off = 0 := by
  rw [byteAt_putFields_of_out, byteAt_zeroBytes]
  intro w hw
  exact h (writeExtent w) (he ▸ List.mem_map_of_mem hw)

/-! ## SMART slots -/

/-- The field writes of one slot, its id byte spelled out (R32, R137). -/
theorem slotBody_eq (L : SmartLayout) (E : EnumTables) (s : State) (d b : Nat) :
    slotBody L E s d b =
      if byteField s (b + L.id) = 0 then []
      else
        [ (d + 0x0, [byteField s (b + L.id), E.smartName (byteField s (b + L.id))]),
          putNat (d + 0x2) 2 (natField s (b + L.flags) 2),
          (d + 0x4, [byteField s (b + L.cur)]),
          (d + 0x5, [byteField s (b + L.worst)]),
          putNat (d + 0x8) 8 (natField s (b + L.raw) 6) ] := rfl

/-- The threshold writes of a merge: one byte for each present slot (R138). -/
theorem mem_thresholdWrites (s : State) (w : RecWrite) (hw : w ∈ (List.range 30).flatMap (thresholdWrite s)) :
    ∃ i < 30, byteAt s.record (slotRecord i) ≠ 0 ∧ w = (slotRecord i + 6, [byteField s (slotOffset i + 1)]) := by
  obtain ⟨i, hi, hw⟩ := List.mem_flatMap.1 hw
  unfold thresholdWrite at hw
  split at hw
  · cases hw
  · rename_i h
    exact ⟨i, List.mem_range.1 hi, h, List.mem_singleton.1 hw⟩

/-- No two writes of a merge touch a common byte. -/
theorem mergeWrites_pairwise (s : State) (x : Byte) :
    ((List.range 30).flatMap (thresholdWrite s) ++ [(0x004, [x])]).Pairwise RecWritesApart := by
  rw [List.pairwise_append]
  refine ⟨?_, by simp, ?_⟩
  · rw [List.pairwise_flatMap]
    refine ⟨?_, ?_⟩
    · intro i _
      unfold thresholdWrite
      split <;> simp
    · refine (List.pairwise_lt_range (n := 30)).imp ?_
      intro a b hab x hx y hy
      unfold thresholdWrite slotRecord at *
      split at hx <;> split at hy <;> simp at hx hy
      subst hx hy
      left
      simp
      omega
  · intro a ha b hb
    obtain ⟨i, _, _, rfl⟩ := mem_thresholdWrites s a ha
    simp at hb
    subst hb
    right
    simp [slotRecord]

/-- A merge leaves every byte of REC but the thresholds and RFLAGS' low byte (R33 (c), R138). -/
theorem byteAt_mergedRecord_of_out (s : State) (off : Nat) (h4 : off ≠ 4) (h : ∀ i < 30, off ≠ slotRecord i + 6) :
    byteAt (mergedRecord s) off = byteAt s.record off := by
  unfold mergedRecord
  apply byteAt_putFields_of_out
  intro w hw
  rcases List.mem_append.1 hw with hw | hw
  · obtain ⟨k, hk, _, rfl⟩ := mem_thresholdWrites s w hw
    have := h k hk
    simp
    omega
  · simp at hw
    subst hw
    simp
    omega

/-- The threshold of a slot after a merge (R138). -/
theorem byteAt_mergedRecord_threshold (s : State) (i : Nat) (hi : i < 30) :
    byteAt (mergedRecord s) (slotRecord i + 6) =
      if byteAt s.record (slotRecord i) = 0 then byteAt s.record (slotRecord i + 6)
      else byteField s (slotOffset i + 1) := by
  unfold mergedRecord
  split
  · rename_i h
    apply byteAt_putFields_of_out
    intro w hw
    rcases List.mem_append.1 hw with hw | hw
    · obtain ⟨k, hk, hne, rfl⟩ := mem_thresholdWrites s w hw
      have : k ≠ i := by
        rintro rfl
        exact hne h
      simp [slotRecord]
      omega
    · simp at hw
      subst hw
      simp [slotRecord]
      try omega
  · rename_i h
    have hm : (slotRecord i + 6, [byteField s (slotOffset i + 1)]) ∈
        (List.range 30).flatMap (thresholdWrite s) ++ [(0x004, [mergedFlags (byteAt s.record 0x004) s.status])] := by
      apply List.mem_append_left
      refine List.mem_flatMap.2 ⟨i, List.mem_range.2 hi, ?_⟩
      rw [thresholdWrite, if_neg h]
      simp
    exact byteAt_putFields_of_mem s.record _ (mergeWrites_pairwise s _) _ hm (by simp [slotRecord]; omega) 0 (by simp)

/-- RFLAGS' low byte after a merge (R26, R138). -/
theorem byteAt_mergedRecord_flags (s : State) :
    byteAt (mergedRecord s) 0x004 = mergedFlags (byteAt s.record 0x004) s.status := by
  unfold mergedRecord
  exact byteAt_putFields_of_mem s.record _ (mergeWrites_pairwise s _)
    (4, [mergedFlags (byteAt s.record 0x004) s.status]) (by simp) (by simp) 0 (by simp)

end Sys2Proof.Machine
end

