-- ==== Sys2Proof/Laws/State.lean ====
section
/-! SUPPORT. One lemma per field per update, true by `rfl`, so that no proof unfolds a record update. -/

namespace Sys2Proof.Machine

/-! ## writeFb -/

@[simp] theorem writeFb_fb (f : Frame) (s : State) : (writeFb f s).fb = f := rfl
@[simp] theorem writeFb_pb (f : Frame) (s : State) : (writeFb f s).pb = s.pb := rfl
@[simp] theorem writeFb_status (f : Frame) (s : State) : (writeFb f s).status = clearVerification s.status := rfl
@[simp] theorem writeFb_faultCode (f : Frame) (s : State) : (writeFb f s).faultCode = s.faultCode := rfl
@[simp] theorem writeFb_faultCmd (f : Frame) (s : State) : (writeFb f s).faultCmd = s.faultCmd := rfl
@[simp] theorem writeFb_magic (f : Frame) (s : State) : (writeFb f s).magic = s.magic := rfl
@[simp] theorem writeFb_seq (f : Frame) (s : State) : (writeFb f s).seq = s.seq := rfl
@[simp] theorem writeFb_lastSeq (f : Frame) (s : State) : (writeFb f s).lastSeq = s.lastSeq := rfl
@[simp] theorem writeFb_plen (f : Frame) (s : State) : (writeFb f s).plen = s.plen := rfl
@[simp] theorem writeFb_roff (f : Frame) (s : State) : (writeFb f s).roff = s.roff := rfl
@[simp] theorem writeFb_ckres (f : Frame) (s : State) : (writeFb f s).ckres = s.ckres := rfl
@[simp] theorem writeFb_xr (f : Frame) (s : State) : (writeFb f s).xr = s.xr := rfl
@[simp] theorem writeFb_slen (f : Frame) (s : State) : (writeFb f s).slen = s.slen := rfl
@[simp] theorem writeFb_sr (f : Frame) (s : State) : (writeFb f s).sr = s.sr := rfl
@[simp] theorem writeFb_record (f : Frame) (s : State) : (writeFb f s).record = s.record := rfl
@[simp] theorem writeFb_pending (f : Frame) (s : State) : (writeFb f s).pending = s.pending := rfl
@[simp] theorem writeFb_response (f : Frame) (s : State) : (writeFb f s).response = s.response := rfl
@[simp] theorem writeFb_resetCount (f : Frame) (s : State) : (writeFb f s).resetCount = s.resetCount := rfl

/-! ## writeCkres -/

@[simp] theorem writeCkres_fb (c : Word) (s : State) : (writeCkres c s).fb = s.fb := rfl
@[simp] theorem writeCkres_pb (c : Word) (s : State) : (writeCkres c s).pb = s.pb := rfl
@[simp] theorem writeCkres_status (c : Word) (s : State) : (writeCkres c s).status = s.status := rfl
@[simp] theorem writeCkres_faultCode (c : Word) (s : State) : (writeCkres c s).faultCode = s.faultCode := rfl
@[simp] theorem writeCkres_faultCmd (c : Word) (s : State) : (writeCkres c s).faultCmd = s.faultCmd := rfl
@[simp] theorem writeCkres_magic (c : Word) (s : State) : (writeCkres c s).magic = s.magic := rfl
@[simp] theorem writeCkres_seq (c : Word) (s : State) : (writeCkres c s).seq = s.seq := rfl
@[simp] theorem writeCkres_lastSeq (c : Word) (s : State) : (writeCkres c s).lastSeq = s.lastSeq := rfl
@[simp] theorem writeCkres_plen (c : Word) (s : State) : (writeCkres c s).plen = s.plen := rfl
@[simp] theorem writeCkres_roff (c : Word) (s : State) : (writeCkres c s).roff = s.roff := rfl
@[simp] theorem writeCkres_ckres (c : Word) (s : State) : (writeCkres c s).ckres = c := rfl
@[simp] theorem writeCkres_xr (c : Word) (s : State) : (writeCkres c s).xr = s.xr := rfl
@[simp] theorem writeCkres_slen (c : Word) (s : State) : (writeCkres c s).slen = s.slen := rfl
@[simp] theorem writeCkres_sr (c : Word) (s : State) : (writeCkres c s).sr = s.sr := rfl
@[simp] theorem writeCkres_record (c : Word) (s : State) : (writeCkres c s).record = s.record := rfl
@[simp] theorem writeCkres_pending (c : Word) (s : State) : (writeCkres c s).pending = s.pending := rfl
@[simp] theorem writeCkres_response (c : Word) (s : State) : (writeCkres c s).response = s.response := rfl
@[simp] theorem writeCkres_resetCount (c : Word) (s : State) : (writeCkres c s).resetCount = s.resetCount := rfl

/-! ## writeXr -/

@[simp] theorem writeXr_fb (v : BitVec 64) (s : State) : (writeXr v s).fb = s.fb := rfl
@[simp] theorem writeXr_pb (v : BitVec 64) (s : State) : (writeXr v s).pb = s.pb := rfl
@[simp] theorem writeXr_status (v : BitVec 64) (s : State) : (writeXr v s).status = s.status := rfl
@[simp] theorem writeXr_faultCode (v : BitVec 64) (s : State) : (writeXr v s).faultCode = s.faultCode := rfl
@[simp] theorem writeXr_faultCmd (v : BitVec 64) (s : State) : (writeXr v s).faultCmd = s.faultCmd := rfl
@[simp] theorem writeXr_magic (v : BitVec 64) (s : State) : (writeXr v s).magic = s.magic := rfl
@[simp] theorem writeXr_seq (v : BitVec 64) (s : State) : (writeXr v s).seq = s.seq := rfl
@[simp] theorem writeXr_lastSeq (v : BitVec 64) (s : State) : (writeXr v s).lastSeq = s.lastSeq := rfl
@[simp] theorem writeXr_plen (v : BitVec 64) (s : State) : (writeXr v s).plen = s.plen := rfl
@[simp] theorem writeXr_roff (v : BitVec 64) (s : State) : (writeXr v s).roff = s.roff := rfl
@[simp] theorem writeXr_ckres (v : BitVec 64) (s : State) : (writeXr v s).ckres = s.ckres := rfl
@[simp] theorem writeXr_xr (v : BitVec 64) (s : State) : (writeXr v s).xr = v := rfl
@[simp] theorem writeXr_slen (v : BitVec 64) (s : State) : (writeXr v s).slen = s.slen := rfl
@[simp] theorem writeXr_sr (v : BitVec 64) (s : State) : (writeXr v s).sr = s.sr := rfl
@[simp] theorem writeXr_record (v : BitVec 64) (s : State) : (writeXr v s).record = s.record := rfl
@[simp] theorem writeXr_pending (v : BitVec 64) (s : State) : (writeXr v s).pending = s.pending := rfl
@[simp] theorem writeXr_response (v : BitVec 64) (s : State) : (writeXr v s).response = s.response := rfl
@[simp] theorem writeXr_resetCount (v : BitVec 64) (s : State) : (writeXr v s).resetCount = s.resetCount := rfl

/-! ## writeSr -/

@[simp] theorem writeSr_fb (bs : List Byte) (s : State) : (writeSr bs s).fb = s.fb := rfl
@[simp] theorem writeSr_pb (bs : List Byte) (s : State) : (writeSr bs s).pb = s.pb := rfl
@[simp] theorem writeSr_status (bs : List Byte) (s : State) : (writeSr bs s).status = s.status := rfl
@[simp] theorem writeSr_faultCode (bs : List Byte) (s : State) : (writeSr bs s).faultCode = s.faultCode := rfl
@[simp] theorem writeSr_faultCmd (bs : List Byte) (s : State) : (writeSr bs s).faultCmd = s.faultCmd := rfl
@[simp] theorem writeSr_magic (bs : List Byte) (s : State) : (writeSr bs s).magic = s.magic := rfl
@[simp] theorem writeSr_seq (bs : List Byte) (s : State) : (writeSr bs s).seq = s.seq := rfl
@[simp] theorem writeSr_lastSeq (bs : List Byte) (s : State) : (writeSr bs s).lastSeq = s.lastSeq := rfl
@[simp] theorem writeSr_plen (bs : List Byte) (s : State) : (writeSr bs s).plen = s.plen := rfl
@[simp] theorem writeSr_roff (bs : List Byte) (s : State) : (writeSr bs s).roff = s.roff := rfl
@[simp] theorem writeSr_ckres (bs : List Byte) (s : State) : (writeSr bs s).ckres = s.ckres := rfl
@[simp] theorem writeSr_xr (bs : List Byte) (s : State) : (writeSr bs s).xr = s.xr := rfl
@[simp] theorem writeSr_slen (bs : List Byte) (s : State) : (writeSr bs s).slen = BitVec.ofNat 32 bs.length := rfl
@[simp] theorem writeSr_sr (bs : List Byte) (s : State) : (writeSr bs s).sr = putBytes (zeroBytes 64) 0 bs := rfl
@[simp] theorem writeSr_record (bs : List Byte) (s : State) : (writeSr bs s).record = s.record := rfl
@[simp] theorem writeSr_pending (bs : List Byte) (s : State) : (writeSr bs s).pending = s.pending := rfl
@[simp] theorem writeSr_response (bs : List Byte) (s : State) : (writeSr bs s).response = s.response := rfl
@[simp] theorem writeSr_resetCount (bs : List Byte) (s : State) : (writeSr bs s).resetCount = s.resetCount := rfl

/-! ## writeRecord -/

@[simp] theorem writeRecord_fb (r : Vector Byte 1024) (s : State) : (writeRecord r s).fb = s.fb := rfl
@[simp] theorem writeRecord_pb (r : Vector Byte 1024) (s : State) : (writeRecord r s).pb = s.pb := rfl
@[simp] theorem writeRecord_status (r : Vector Byte 1024) (s : State) : (writeRecord r s).status = s.status := rfl
@[simp] theorem writeRecord_faultCode (r : Vector Byte 1024) (s : State) : (writeRecord r s).faultCode = s.faultCode := rfl
@[simp] theorem writeRecord_faultCmd (r : Vector Byte 1024) (s : State) : (writeRecord r s).faultCmd = s.faultCmd := rfl
@[simp] theorem writeRecord_magic (r : Vector Byte 1024) (s : State) : (writeRecord r s).magic = s.magic := rfl
@[simp] theorem writeRecord_seq (r : Vector Byte 1024) (s : State) : (writeRecord r s).seq = s.seq := rfl
@[simp] theorem writeRecord_lastSeq (r : Vector Byte 1024) (s : State) : (writeRecord r s).lastSeq = s.lastSeq := rfl
@[simp] theorem writeRecord_plen (r : Vector Byte 1024) (s : State) : (writeRecord r s).plen = s.plen := rfl
@[simp] theorem writeRecord_roff (r : Vector Byte 1024) (s : State) : (writeRecord r s).roff = s.roff := rfl
@[simp] theorem writeRecord_ckres (r : Vector Byte 1024) (s : State) : (writeRecord r s).ckres = s.ckres := rfl
@[simp] theorem writeRecord_xr (r : Vector Byte 1024) (s : State) : (writeRecord r s).xr = s.xr := rfl
@[simp] theorem writeRecord_slen (r : Vector Byte 1024) (s : State) : (writeRecord r s).slen = s.slen := rfl
@[simp] theorem writeRecord_sr (r : Vector Byte 1024) (s : State) : (writeRecord r s).sr = s.sr := rfl
@[simp] theorem writeRecord_record (r : Vector Byte 1024) (s : State) : (writeRecord r s).record = r := rfl
@[simp] theorem writeRecord_pending (r : Vector Byte 1024) (s : State) : (writeRecord r s).pending = s.pending := rfl
@[simp] theorem writeRecord_response (r : Vector Byte 1024) (s : State) : (writeRecord r s).response = s.response := rfl
@[simp] theorem writeRecord_resetCount (r : Vector Byte 1024) (s : State) : (writeRecord r s).resetCount = s.resetCount := rfl

/-! ## writeStatus -/

@[simp] theorem writeStatus_fb (st : Status) (s : State) : (writeStatus st s).fb = s.fb := rfl
@[simp] theorem writeStatus_pb (st : Status) (s : State) : (writeStatus st s).pb = s.pb := rfl
@[simp] theorem writeStatus_status (st : Status) (s : State) : (writeStatus st s).status = st := rfl
@[simp] theorem writeStatus_faultCode (st : Status) (s : State) : (writeStatus st s).faultCode = s.faultCode := rfl
@[simp] theorem writeStatus_faultCmd (st : Status) (s : State) : (writeStatus st s).faultCmd = s.faultCmd := rfl
@[simp] theorem writeStatus_magic (st : Status) (s : State) : (writeStatus st s).magic = s.magic := rfl
@[simp] theorem writeStatus_seq (st : Status) (s : State) : (writeStatus st s).seq = s.seq := rfl
@[simp] theorem writeStatus_lastSeq (st : Status) (s : State) : (writeStatus st s).lastSeq = s.lastSeq := rfl
@[simp] theorem writeStatus_plen (st : Status) (s : State) : (writeStatus st s).plen = s.plen := rfl
@[simp] theorem writeStatus_roff (st : Status) (s : State) : (writeStatus st s).roff = s.roff := rfl
@[simp] theorem writeStatus_ckres (st : Status) (s : State) : (writeStatus st s).ckres = s.ckres := rfl
@[simp] theorem writeStatus_xr (st : Status) (s : State) : (writeStatus st s).xr = s.xr := rfl
@[simp] theorem writeStatus_slen (st : Status) (s : State) : (writeStatus st s).slen = s.slen := rfl
@[simp] theorem writeStatus_sr (st : Status) (s : State) : (writeStatus st s).sr = s.sr := rfl
@[simp] theorem writeStatus_record (st : Status) (s : State) : (writeStatus st s).record = s.record := rfl
@[simp] theorem writeStatus_pending (st : Status) (s : State) : (writeStatus st s).pending = s.pending := rfl
@[simp] theorem writeStatus_response (st : Status) (s : State) : (writeStatus st s).response = s.response := rfl
@[simp] theorem writeStatus_resetCount (st : Status) (s : State) : (writeStatus st s).resetCount = s.resetCount := rfl

/-! ## takeFault -/

@[simp] theorem takeFault_fb (code : FaultCode) (c : Word) (s : State) : (takeFault code c s).fb = s.fb := rfl
@[simp] theorem takeFault_pb (code : FaultCode) (c : Word) (s : State) : (takeFault code c s).pb = s.pb := rfl
@[simp] theorem takeFault_status (code : FaultCode) (c : Word) (s : State) : (takeFault code c s).status = { s.status with flt := true } := rfl
@[simp] theorem takeFault_faultCode (code : FaultCode) (c : Word) (s : State) : (takeFault code c s).faultCode = faultNumber code := rfl
@[simp] theorem takeFault_faultCmd (code : FaultCode) (c : Word) (s : State) : (takeFault code c s).faultCmd = c := rfl
@[simp] theorem takeFault_magic (code : FaultCode) (c : Word) (s : State) : (takeFault code c s).magic = s.magic := rfl
@[simp] theorem takeFault_seq (code : FaultCode) (c : Word) (s : State) : (takeFault code c s).seq = s.seq := rfl
@[simp] theorem takeFault_lastSeq (code : FaultCode) (c : Word) (s : State) : (takeFault code c s).lastSeq = s.lastSeq := rfl
@[simp] theorem takeFault_plen (code : FaultCode) (c : Word) (s : State) : (takeFault code c s).plen = s.plen := rfl
@[simp] theorem takeFault_roff (code : FaultCode) (c : Word) (s : State) : (takeFault code c s).roff = s.roff := rfl
@[simp] theorem takeFault_ckres (code : FaultCode) (c : Word) (s : State) : (takeFault code c s).ckres = s.ckres := rfl
@[simp] theorem takeFault_xr (code : FaultCode) (c : Word) (s : State) : (takeFault code c s).xr = s.xr := rfl
@[simp] theorem takeFault_slen (code : FaultCode) (c : Word) (s : State) : (takeFault code c s).slen = s.slen := rfl
@[simp] theorem takeFault_sr (code : FaultCode) (c : Word) (s : State) : (takeFault code c s).sr = s.sr := rfl
@[simp] theorem takeFault_record (code : FaultCode) (c : Word) (s : State) : (takeFault code c s).record = s.record := rfl
@[simp] theorem takeFault_pending (code : FaultCode) (c : Word) (s : State) : (takeFault code c s).pending = s.pending := rfl
@[simp] theorem takeFault_response (code : FaultCode) (c : Word) (s : State) : (takeFault code c s).response = s.response := rfl
@[simp] theorem takeFault_resetCount (code : FaultCode) (c : Word) (s : State) : (takeFault code c s).resetCount = s.resetCount := rfl

/-! ## respond -/

@[simp] theorem respond_fb (r : BusResponse) (s : State) : (respond r s).fb = s.fb := rfl
@[simp] theorem respond_pb (r : BusResponse) (s : State) : (respond r s).pb = s.pb := rfl
@[simp] theorem respond_status (r : BusResponse) (s : State) : (respond r s).status = s.status := rfl
@[simp] theorem respond_faultCode (r : BusResponse) (s : State) : (respond r s).faultCode = s.faultCode := rfl
@[simp] theorem respond_faultCmd (r : BusResponse) (s : State) : (respond r s).faultCmd = s.faultCmd := rfl
@[simp] theorem respond_magic (r : BusResponse) (s : State) : (respond r s).magic = s.magic := rfl
@[simp] theorem respond_seq (r : BusResponse) (s : State) : (respond r s).seq = s.seq := rfl
@[simp] theorem respond_lastSeq (r : BusResponse) (s : State) : (respond r s).lastSeq = s.lastSeq := rfl
@[simp] theorem respond_plen (r : BusResponse) (s : State) : (respond r s).plen = s.plen := rfl
@[simp] theorem respond_roff (r : BusResponse) (s : State) : (respond r s).roff = s.roff := rfl
@[simp] theorem respond_ckres (r : BusResponse) (s : State) : (respond r s).ckres = s.ckres := rfl
@[simp] theorem respond_xr (r : BusResponse) (s : State) : (respond r s).xr = s.xr := rfl
@[simp] theorem respond_slen (r : BusResponse) (s : State) : (respond r s).slen = s.slen := rfl
@[simp] theorem respond_sr (r : BusResponse) (s : State) : (respond r s).sr = s.sr := rfl
@[simp] theorem respond_record (r : BusResponse) (s : State) : (respond r s).record = s.record := rfl
@[simp] theorem respond_pending (r : BusResponse) (s : State) : (respond r s).pending = s.pending := rfl
@[simp] theorem respond_response (r : BusResponse) (s : State) : (respond r s).response = r := rfl
@[simp] theorem respond_resetCount (r : BusResponse) (s : State) : (respond r s).resetCount = s.resetCount := rfl

/-! ## clearVerification -/

@[simp] theorem clearVerification_ckok (st : Status) : (clearVerification st).ckok = false := rfl
@[simp] theorem clearVerification_ckbad (st : Status) : (clearVerification st).ckbad = false := rfl
@[simp] theorem clearVerification_seqok (st : Status) : (clearVerification st).seqok = false := rfl
@[simp] theorem clearVerification_seqbad (st : Status) : (clearVerification st).seqbad = false := rfl
@[simp] theorem clearVerification_seqx (st : Status) : (clearVerification st).seqx = st.seqx := rfl
@[simp] theorem clearVerification_lsv (st : Status) : (clearVerification st).lsv = st.lsv := rfl
@[simp] theorem clearVerification_flt (st : Status) : (clearVerification st).flt = st.flt := rfl

/-! ## checksumVerdict -/

@[simp] theorem checksumVerdict_ckok (ok : Bool) (st : Status) : (checksumVerdict ok st).ckok = ok := rfl
@[simp] theorem checksumVerdict_ckbad (ok : Bool) (st : Status) : (checksumVerdict ok st).ckbad = !ok := rfl
@[simp] theorem checksumVerdict_seqok (ok : Bool) (st : Status) : (checksumVerdict ok st).seqok = st.seqok := rfl
@[simp] theorem checksumVerdict_seqbad (ok : Bool) (st : Status) : (checksumVerdict ok st).seqbad = st.seqbad := rfl
@[simp] theorem checksumVerdict_seqx (ok : Bool) (st : Status) : (checksumVerdict ok st).seqx = st.seqx := rfl
@[simp] theorem checksumVerdict_lsv (ok : Bool) (st : Status) : (checksumVerdict ok st).lsv = st.lsv := rfl
@[simp] theorem checksumVerdict_flt (ok : Bool) (st : Status) : (checksumVerdict ok st).flt = st.flt := rfl

/-! ## sequenceVerdict -/

@[simp] theorem sequenceVerdict_ckok (ok : Bool) (st : Status) : (sequenceVerdict ok st).ckok = st.ckok := rfl
@[simp] theorem sequenceVerdict_ckbad (ok : Bool) (st : Status) : (sequenceVerdict ok st).ckbad = st.ckbad := rfl
@[simp] theorem sequenceVerdict_seqok (ok : Bool) (st : Status) : (sequenceVerdict ok st).seqok = ok := rfl
@[simp] theorem sequenceVerdict_seqbad (ok : Bool) (st : Status) : (sequenceVerdict ok st).seqbad = !ok := rfl
@[simp] theorem sequenceVerdict_seqx (ok : Bool) (st : Status) : (sequenceVerdict ok st).seqx = st.seqx := rfl
@[simp] theorem sequenceVerdict_lsv (ok : Bool) (st : Status) : (sequenceVerdict ok st).lsv = st.lsv := rfl
@[simp] theorem sequenceVerdict_flt (ok : Bool) (st : Status) : (sequenceVerdict ok st).flt = st.flt := rfl

/-! ## reset -/

@[simp] theorem afterReset_fb (n : Nat) (p : List HostAccess) : (State.afterReset n p).fb = byteArray 512 (Config.resetFb n) := rfl
@[simp] theorem afterReset_pb (n : Nat) (p : List HostAccess) : (State.afterReset n p).pb = byteArray 504 (Config.resetPb n) := rfl
@[simp] theorem afterReset_status (n : Nat) (p : List HostAccess) : (State.afterReset n p).status = Status.reset := rfl
@[simp] theorem afterReset_faultCode (n : Nat) (p : List HostAccess) : (State.afterReset n p).faultCode = 0 := rfl
@[simp] theorem afterReset_faultCmd (n : Nat) (p : List HostAccess) : (State.afterReset n p).faultCmd = 0 := rfl
@[simp] theorem afterReset_magic (n : Nat) (p : List HostAccess) : (State.afterReset n p).magic = Config.resetMagic n := rfl
@[simp] theorem afterReset_seq (n : Nat) (p : List HostAccess) : (State.afterReset n p).seq = 1 := rfl
@[simp] theorem afterReset_lastSeq (n : Nat) (p : List HostAccess) : (State.afterReset n p).lastSeq = Config.resetLastSeq n := rfl
@[simp] theorem afterReset_plen (n : Nat) (p : List HostAccess) : (State.afterReset n p).plen = 0 := rfl
@[simp] theorem afterReset_roff (n : Nat) (p : List HostAccess) : (State.afterReset n p).roff = 0x0C := rfl
@[simp] theorem afterReset_ckres (n : Nat) (p : List HostAccess) : (State.afterReset n p).ckres = Config.resetCkres n := rfl
@[simp] theorem afterReset_xr (n : Nat) (p : List HostAccess) : (State.afterReset n p).xr = Config.resetXr n := rfl
@[simp] theorem afterReset_slen (n : Nat) (p : List HostAccess) : (State.afterReset n p).slen = 0 := rfl
@[simp] theorem afterReset_sr (n : Nat) (p : List HostAccess) : (State.afterReset n p).sr = Vector.replicate 64 0 := rfl
@[simp] theorem afterReset_record (n : Nat) (p : List HostAccess) : (State.afterReset n p).record = Vector.replicate 1024 0 := rfl
@[simp] theorem afterReset_pending (n : Nat) (p : List HostAccess) : (State.afterReset n p).pending = p := rfl
@[simp] theorem afterReset_response (n : Nat) (p : List HostAccess) : (State.afterReset n p).response = .none := rfl
@[simp] theorem afterReset_resetCount (n : Nat) (p : List HostAccess) : (State.afterReset n p).resetCount = n := rfl
@[simp] theorem statusReset_ckok : Status.reset.ckok = false := rfl
@[simp] theorem statusReset_ckbad : Status.reset.ckbad = false := rfl
@[simp] theorem statusReset_seqok : Status.reset.seqok = false := rfl
@[simp] theorem statusReset_seqbad : Status.reset.seqbad = false := rfl
@[simp] theorem statusReset_seqx : Status.reset.seqx = false := rfl
@[simp] theorem statusReset_lsv : Status.reset.lsv = false := rfl
@[simp] theorem statusReset_flt : Status.reset.flt = false := rfl

end Sys2Proof.Machine
end

