-- ==== Sys2Proof/Laws/Ops.lean ====
section
/-! SUPPORT. What each shared operation, an operation of the block and a host access can do, said once. -/

namespace Sys2Proof.Machine

/-- A numeric extraction writes XR or faults with E_RANGE (R101). -/
theorem getNumber_cases (i : Instr) (off n : Nat) (result : Nat → BitVec 64) (s t : State)
    (h : getNumber i off n result s = t) :
    (inRange s off n = true ∧ t = writeXr (result (natField s off n)) s) ∨
    (inRange s off n = false ∧ t = takeFault .eRange (encode i) s) := by
  subst h
  unfold getNumber
  cases inRange s off n
  · exact .inr ⟨rfl, rfl⟩
  · exact .inl ⟨rfl, rfl⟩

/-- A string extraction faults with E_LEN, else with E_RANGE, else writes SR and SLEN (R107, R108). -/
theorem getBytes_cases (i : Instr) (off len : Nat) (legal : Bool) (bytes : List Byte) (s t : State)
    (h : getBytes i off len legal bytes s = t) :
    (legal = false ∧ t = takeFault .eLen (encode i) s) ∨
    (legal = true ∧ inRange s off len = true ∧ t = writeSr bytes s) ∨
    (legal = true ∧ inRange s off len = false ∧ t = takeFault .eRange (encode i) s) := by
  subst h
  unfold getBytes
  cases legal
  · exact .inl ⟨rfl, rfl⟩
  · cases inRange s off len
    · exact .inr (.inr ⟨rfl, rfl, rfl⟩)
    · exact .inr (.inl ⟨rfl, rfl, rfl⟩)

/-- FBUILD faults with E_SEQX, else with E_PLEN, else builds (R100). -/
theorem fbuildWith_cases (P : Params) (s t : State) (h : fbuildWith P s = t) :
    (s.status.seqx = true ∧ t = takeFault .eSeqx (encode .fbuild) s) ∨
    (s.status.seqx = false ∧ 504 < s.plen.toNat ∧ t = takeFault .ePlen (encode .fbuild) s) ∨
    (s.status.seqx = false ∧ s.plen.toNat ≤ 504 ∧ t = buildWith P s) := by
  subst h
  unfold fbuildWith
  by_cases h1 : s.status.seqx = true
  · exact .inl ⟨h1, by simp [h1]⟩
  · simp only [Bool.not_eq_true] at h1
    by_cases h2 : 504 < s.plen.toNat
    · exact .inr (.inl ⟨h1, h2, by simp [h1, h2]⟩)
    · exact .inr (.inr ⟨h1, by omega, by simp [h1, h2]⟩)

/-- Every operation of the block answers a next state: it completes or it takes a fault of R161. -/
theorem exec_next (i : Instr) (s : State) : ∃ t, exec i s = .next t := by
  cases i <;> exact ⟨_, rfl⟩

/-- An accepted command word runs its operation or takes E_OPC (R68). -/
theorem command_cases (c : Word) (s : State) :
    (∃ i, decode c = .ok i ∧ command c s = exec i s) ∨
    (∃ e, decode c = .error e ∧ command c s = .next (takeFault .eOpc c s)) := by
  unfold command
  cases decode c with
  | ok i => exact .inl ⟨i, rfl, rfl⟩
  | error e => exact .inr ⟨e, rfl, rfl⟩

/-- A host read changes the bus's answer only (R45). -/
theorem hostRead_eq_respond (off : Nat) (size : AccessSize) (s : State) :
    ∃ r, hostRead off size s = respond r s := by
  unfold hostRead
  cases windowRead s off size with
  | some v => exact ⟨.data v, rfl⟩
  | none => exact ⟨.busError, rfl⟩

/-- What a host write can do: be refused, run a command, or store (R45, R46). -/
theorem hostWrite_cases (off : Nat) (size : AccessSize) (v : Word) (s : State) :
    (legalWrite s.status.flt off size = none ∧ hostWrite off size v s = .next (respond .busError s)) ∨
    (∃ rel, legalWrite s.status.flt off size = some (.cmd, rel) ∧
      hostWrite off size v s = command v (respond .done s)) ∨
    (∃ area rel, area ≠ .cmd ∧ legalWrite s.status.flt off size = some (area, rel) ∧
      hostWrite off size v s = .next (respond .done (areaWrite area rel (accessBytes size) v s))) := by
  unfold hostWrite
  cases h : legalWrite s.status.flt off size with
  | none => exact .inl ⟨rfl, rfl⟩
  | some a =>
    obtain ⟨area, rel⟩ := a
    by_cases hc : area = .cmd
    · subst hc
      exact .inr (.inl ⟨rel, rfl, by simp⟩)
    · exact .inr (.inr ⟨area, rel, hc, rfl, by simp [hc]⟩)

/-- No write is legal while the block is frozen (R47). -/
theorem legalWrite_frozen (off : Nat) (size : AccessSize) : legalWrite true off size = none := rfl

/-- A step performs the next access, or nothing (R50). -/
theorem step_cases (s : State) :
    (s.pending = [] ∧ step s = .next s) ∨
    (∃ a rest, s.pending = a :: rest ∧ step s = perform a { s with pending := rest }) := by
  unfold step nextAccess
  cases h : s.pending with
  | nil => exact .inl ⟨rfl, rfl⟩
  | cons a rest => exact .inr ⟨a, rest, rfl, rfl⟩

/-- DECSMARTT faults with E_KIND, else merges, else faults with E_RANGE (R138). -/
theorem execDecsmartt_cases (s t : State) (h : execDecsmartt s = .next t) :
    (recordKind s.record ≠ 5 ∧ t = takeFault .eKind (encode .decsmartt) s) ∨
    (recordKind s.record = 5 ∧ smartInRange s = true ∧ t = writeRecord (mergedRecord s) s) ∨
    (recordKind s.record = 5 ∧ smartInRange s = false ∧ t = takeFault .eRange (encode .decsmartt) s) := by
  unfold execDecsmartt at h
  injection h with h
  split at h
  · rename_i hk
    exact .inl ⟨hk, h.symm⟩
  · rename_i hk
    rw [Decidable.not_not] at hk
    split at h
    · rename_i hr
      exact .inr (.inl ⟨hk, hr, h.symm⟩)
    · rename_i hr
      exact .inr (.inr ⟨hk, Bool.not_eq_true _ ▸ hr, h.symm⟩)

/-- A write reaches CMD only as the 4-byte write of offset 0x400 to a running block (R13, R42). -/
theorem legalWrite_cmd (flt : Bool) (off : Nat) (size : AccessSize) (rel : Nat)
    (h : legalWrite flt off size = some (.cmd, rel)) : flt = false ∧ off = 0x400 ∧ size = .word := by
  unfold legalWrite accessRow at h
  cases flt with
  | true => cases h
  | false =>
    simp only [Bool.false_eq_true, if_false, Option.map_eq_some_iff, Option.filter_eq_some_iff] at h
    obtain ⟨r, ⟨h1, _⟩, h2⟩ := h
    split at h1
    · obtain ⟨h1, h3⟩ := Option.filter_eq_some_iff.1 h1
      unfold rowOf at h1
      have hm := List.mem_of_find?_eq_some h1
      have hp := List.find?_some h1
      injection h2 with h2 _
      have hrow : ∀ r ∈ windowMap, r.area = .cmd → r.start = 0x400 ∧ r.size = 4 ∧ r.wordOnly = true := by
        simp [windowMap]
      obtain ⟨e1, e2, e3⟩ := hrow r hm h2
      simp only [e3, Bool.not_true, Bool.false_or, decide_eq_true_eq] at h3
      subst h3
      simp only [e1, e2, accessBytes, decide_eq_true_eq] at hp
      exact ⟨rfl, by omega, rfl⟩
    · cases h1

/-- What a step can do: move the host's side of the bus only, reset, take E_OPC, run an operation, or store a host's
write. -/
theorem step_next_cases (s t : State) (h : step s = .next t) :
    (∃ p r, t = { s with pending := p, response := r }) ∨
    (∃ rest, s.pending = .reset :: rest ∧ t = State.afterReset (s.resetCount + 1) rest) ∨
    (∃ rest c e, s.pending = .write 0x400 .word c :: rest ∧ s.status.flt = false ∧ decode c = .error e ∧
      t = takeFault .eOpc c { s with pending := rest, response := .done }) ∨
    (∃ rest c i, s.pending = .write 0x400 .word c :: rest ∧ s.status.flt = false ∧ decode c = .ok i ∧
      exec i { s with pending := rest, response := .done } = .next t) ∨
    (∃ rest area rel n v, s.status.flt = false ∧
      t = respond .done (areaWrite area rel n v { s with pending := rest })) := by
  rcases step_cases s with ⟨_, e⟩ | ⟨a, rest, hp, e⟩
  · rw [e] at h
    injection h with h
    exact .inl ⟨s.pending, s.response, h.symm⟩
  · rw [e] at h
    unfold perform at h
    cases a with
    | read off size =>
      obtain ⟨r, hr⟩ := hostRead_eq_respond off size { s with pending := rest }
      simp only at h
      rw [hr] at h
      injection h with h
      exact .inl ⟨rest, r, h.symm⟩
    | reset =>
      injection h with h
      exact .inr (.inl ⟨rest, hp, h.symm⟩)
    | write off size v =>
      simp only at h
      rcases hostWrite_cases off size v { s with pending := rest } with ⟨_, e⟩ | ⟨rel, hl, e⟩ | ⟨area, rel, _, hl, e⟩
      · rw [e] at h
        injection h with h
        exact .inl ⟨rest, .busError, h.symm⟩
      · rw [e] at h
        obtain ⟨hf, rfl, rfl⟩ := legalWrite_cmd _ _ _ _ hl
        rcases command_cases v (respond .done { s with pending := rest }) with ⟨i, hi, e⟩ | ⟨x, hx, e⟩
        · rw [e] at h
          exact .inr (.inr (.inr (.inl ⟨rest, v, i, hp, hf, hi, h⟩)))
        · rw [e] at h
          injection h with h
          exact .inr (.inr (.inl ⟨rest, v, x, hp, hf, hx, h.symm⟩))
      · rw [e] at h
        injection h with h
        have hf : s.status.flt = false := by
          cases hs : s.status.flt with
          | false => rfl
          | true =>
            rw [show (State.status { s with pending := rest }).flt = true from hs, legalWrite_frozen] at hl
            cases hl
        exact .inr (.inr (.inr (.inr ⟨rest, area, rel, _, v, hf, h.symm⟩)))

end Sys2Proof.Machine
end

