-- ==== Sys2Proof/Laws/PerInstr.lean ====
section
/-! SUPPORT. Statements made per operation: one lemma per constructor of `Instr`. -/

namespace Sys2Proof.Laws

theorem maskN (c : Word) : c &&& (0xFFFFFFFF : Word) = c := by
  have : (0xFFFFFFFF : Word) = BitVec.allOnes 32 := by decide
  rw [this, BitVec.and_allOnes]

theorem maskO (opc off : Nat) (h1 : opc < 256) (h : offOk off = true) (m : Word) (hm : m.toNat = opc * 0x1000000) :
    commandWord opc 0 off &&& (0xFFFFFE00 : Word) = m := by
  have h3 : off < 512 := Nat.lt_succ_of_le (of_decide_eq_true h)
  apply BitVec.eq_of_toNat_eq
  rw [and_maskO_toNat, commandWord_toNat opc 0 off h1 (by omega) h3, hm]
  omega

theorem maskS (opc off len : Nat) (h1 : opc < 256) (h : (offOk off && lenOk len) = true) (m : Word)
    (hm : m.toNat = opc * 0x1000000) : commandWord opc len off &&& (0xFF00FE00 : Word) = m := by
  rw [Bool.and_eq_true] at h
  have h3 : off < 512 := Nat.lt_succ_of_le (of_decide_eq_true h.1)
  have h2 : len < 256 := Nat.lt_succ_of_le (of_decide_eq_true h.2)
  apply BitVec.eq_of_toNat_eq
  rw [and_maskS_toNat, opcField_commandWord opc len off h1 h2 h3, zeroField_commandWord opc len off h1 h2 h3, hm]
  omega

namespace EncodeMatchesRow

/-- A well-formed operation's encoding selects its own row of R63: `c AND mask = match` (R61). -/
def Statement (i : Instr) : Prop := i.wf = true → encode i &&& rowMask i = rowMatch i

theorem nop : Statement .nop := fun _ => by decide
theorem cksum : Statement .cksum := fun _ => by decide
theorem ckstamp : Statement .ckstamp := fun _ => by decide
theorem ckvfy : Statement .ckvfy := fun _ => by decide
theorem scr : Statement .scr := fun _ => by decide
theorem dscr : Statement .dscr := fun _ => by decide
theorem fbuild : Statement .fbuild := fun _ => by decide
theorem getu8 (off : Nat) : Statement (.getu8 off) := fun h => maskO 0x30 off (by decide) h 0x30000000 (by decide)
theorem getu16 (off : Nat) : Statement (.getu16 off) := fun h => maskO 0x31 off (by decide) h 0x31000000 (by decide)
theorem getu32 (off : Nat) : Statement (.getu32 off) := fun h => maskO 0x32 off (by decide) h 0x32000000 (by decide)
theorem getu48 (off : Nat) : Statement (.getu48 off) := fun h => maskO 0x33 off (by decide) h 0x33000000 (by decide)
theorem getcap (off : Nat) : Statement (.getcap off) := fun h => maskO 0x34 off (by decide) h 0x34000000 (by decide)
theorem getstr (off len : Nat) : Statement (.getstr off len) := fun h => maskS 0x35 off len (by decide) h 0x35000000 (by decide)
theorem getraw (off len : Nat) : Statement (.getraw off len) := fun h => maskS 0x36 off len (by decide) h 0x36000000 (by decide)
theorem seqchk : Statement .seqchk := fun _ => by decide
theorem decchip : Statement .decchip := fun _ => by decide
theorem decrport : Statement .decrport := fun _ => by decide
theorem decsata : Statement .decsata := fun _ => by decide
theorem decsport : Statement .decsport := fun _ => by decide
theorem decsmartv : Statement .decsmartv := fun _ => by decide
theorem decsmartt : Statement .decsmartt := fun _ => by decide

end EncodeMatchesRow

end Sys2Proof.Laws
end

