-- ==== Sys2Proof/Laws/Window.lean ====
section
/-! SUPPORT. The memory as cells is in its canonical form in every state, and the byte reads of the host window. -/

namespace Sys2Proof.Machine

theorem wf_of_sorted (l : List Host.Cell) (h : l.Pairwise fun a b => a.1 < b.1) : Memory.wf l = true := by
  induction l with
  | nil => rfl
  | cons x l ih =>
    rw [List.pairwise_cons] at h
    cases l with
    | nil => rfl
    | cons y l =>
      rw [Memory.wf, ih h.2]
      simpa using h.1 y List.mem_cons_self

/-- The cell list of every state is canonical, so every operation of the block keeps the form. -/
theorem memCells_wf (s : State) : Memory.wf (memCells s) = true := by
  apply wf_of_sorted
  unfold memCells
  rw [List.pairwise_filterMap]
  have h : (List.range 4096).Pairwise (· < ·) := List.pairwise_lt_range
  refine h.imp ?_
  intro a b hab x hx y hy
  simp only [Option.map_eq_some_iff] at hx hy
  obtain ⟨_, _, rfl⟩ := hx
  obtain ⟨_, _, rfl⟩ := hy
  exact hab

/-- A cell is listed exactly where the window has that byte (R41). -/
theorem mem_memCells (s : State) (off : Nat) (b : Byte) : (off, b) ∈ memCells s ↔ off < 4096 ∧ memByte s off = some b := by
  unfold memCells
  simp only [List.mem_filterMap, List.mem_range, Option.map_eq_some_iff, Prod.mk.injEq]
  constructor
  · rintro ⟨a, h, c, hc, rfl, rfl⟩
    exact ⟨h, hc⟩
  · rintro ⟨h, hb⟩
    exact ⟨off, h, b, hb, rfl, rfl⟩

/-- `memByte` sees FB, PB, SR and REC and nothing else of the state. -/
theorem memByte_congr (s t : State) (h1 : t.fb = s.fb) (h2 : t.pb = s.pb) (h3 : t.sr = s.sr) (h4 : t.record = s.record)
    (off : Nat) : memByte t off = memByte s off := by
  unfold memByte
  rw [h1, h2, h3, h4]

theorem memByte_fb (s : State) (i : Nat) (h : i < 512) : memByte s i = some (byteAt s.fb i) := by
  simp [memByte, h]

theorem memByte_pb (s : State) (i : Nat) (h : i < 504) : memByte s (0x200 + i) = some (byteAt s.pb i) := by
  have h1 : ¬ (0x200 + i < 0x200) := by omega
  have h2 : 0x200 ≤ 0x200 + i ∧ 0x200 + i < 0x3F8 := by omega
  have h3 : 0x200 + i - 0x200 = i := by omega
  simp only [memByte, if_neg h1, if_pos h2, h3]

theorem memByte_sr (s : State) (i : Nat) (h : i < 64) : memByte s (0x440 + i) = some (byteAt s.sr i) := by
  have h1 : ¬ (0x440 + i < 0x200) := by omega
  have h2 : ¬ (0x200 ≤ 0x440 + i ∧ 0x440 + i < 0x3F8) := by omega
  have h3 : 0x440 ≤ 0x440 + i ∧ 0x440 + i < 0x480 := by omega
  have h4 : 0x440 + i - 0x440 = i := by omega
  simp only [memByte, if_neg h1, if_neg h2, if_pos h3, h4]

theorem memByte_record (s : State) (i : Nat) (h : i < 1024) : memByte s (0x800 + i) = some (byteAt s.record i) := by
  have h1 : ¬ (0x800 + i < 0x200) := by omega
  have h2 : ¬ (0x200 ≤ 0x800 + i ∧ 0x800 + i < 0x3F8) := by omega
  have h3 : ¬ (0x440 ≤ 0x800 + i ∧ 0x800 + i < 0x480) := by omega
  have h4 : 0x800 ≤ 0x800 + i ∧ 0x800 + i < 0xC00 := by omega
  have h5 : 0x800 + i - 0x800 = i := by omega
  simp only [memByte, if_neg h1, if_neg h2, if_neg h3, if_pos h4, h5]

end Sys2Proof.Machine
end

