-- ==== Sys2Proof/Tests/Slice0.lean ====
section
/-! SUPPORT. The model's own tests. Expected values are those of spec/95_test_vectors.md (the vector's name stands with
each test) or worked out by hand from the rule named. -/

namespace Sys2Proof.Machine.Tests

open Sys2Proof

set_option Elab.async false

/-! ## Well-formedness: each check refuses an ill-formed term (R66) -/

theorem test_wf_off_511 : (Instr.getu8 511).wf = true := by decide
theorem test_wf_off_512_refused : (Instr.getu8 512).wf = false := by decide
theorem test_wf_len_255 : (Instr.getstr 511 255).wf = true := by decide
theorem test_wf_len_256_refused : (Instr.getraw 0 256).wf = false := by decide
theorem test_assemble_refuses : assemble (.getstr 512 2) = none := by decide

/-! ## Decoding: words written out from R61 and R63, every constructor -/

theorem test_decode_nop : decode 0x00000000 = .ok .nop := by decide
theorem test_decode_cksum : decode 0x01000000 = .ok .cksum := by decide
theorem test_decode_ckstamp : decode 0x02000000 = .ok .ckstamp := by decide
theorem test_decode_ckvfy : decode 0x03000000 = .ok .ckvfy := by decide
theorem test_decode_scr : decode 0x10000000 = .ok .scr := by decide
theorem test_decode_dscr : decode 0x11000000 = .ok .dscr := by decide
theorem test_decode_fbuild : decode 0x20000000 = .ok .fbuild := by decide
/-- OPC 00110000, LEN 00000000, ZERO 0000000, OFF 000010110 (R102's example). -/
theorem test_decode_getu8 : decode 0b00110000000000000000000000010110 = .ok (.getu8 0x16) := by decide
theorem test_decode_getu16 : decode 0x310001F2 = .ok (.getu16 498) := by decide
theorem test_decode_getu32 : decode 0x320001F0 = .ok (.getu32 496) := by decide
theorem test_decode_getu48 : decode 0x330001EE = .ok (.getu48 494) := by decide
theorem test_decode_getcap : decode 0x34000000 = .ok (.getcap 0) := by decide
/-- OPC 00110101, LEN 01000000, ZERO 0000000, OFF 110110100 (V-G20). -/
theorem test_decode_getstr : decode 0b00110101010000000000000110110100 = .ok (.getstr 436 64) := by decide
theorem test_decode_getraw : decode 0x36030001 = .ok (.getraw 1 3) := by decide
theorem test_decode_seqchk : decode 0x40000000 = .ok .seqchk := by decide
theorem test_decode_decchip : decode 0x41000000 = .ok .decchip := by decide
theorem test_decode_decrport : decode 0x42000000 = .ok .decrport := by decide
theorem test_decode_decsata : decode 0x43000000 = .ok .decsata := by decide
theorem test_decode_decsport : decode 0x44000000 = .ok .decsport := by decide
theorem test_decode_decsmartv : decode 0x45000000 = .ok .decsmartv := by decide
theorem test_decode_decsmartt : decode 0x46000000 = .ok .decsmartt := by decide

/-- V-E1 to V-E5: a nonzero bit where the format requires zero. -/
theorem test_decode_fields_refused :
    decode 0x00000001 = .error .nonzeroLenOrOff ∧ decode 0x01000100 = .error .nonzeroLenOrOff ∧
    decode 0x46800000 = .error .nonzeroLenOrOff ∧ decode 0x30010000 = .error .nonzeroLen ∧
    decode 0x35080200 = .error .nonzeroZero := by decide
/-- V-E6 to V-E11: unassigned opcodes. -/
theorem test_decode_opcodes_refused :
    [0x04000000, 0x12000000, 0x21000000, 0x37000000, 0x47000000, 0xFFFFFFFF].map decode
      = List.replicate 6 (.error .unassignedOpcode) := by decide
theorem test_encode_getstr : encode (.getstr 511 255) = 0x35FF01FF := by decide
theorem test_listing_getraw : listingLine (.getraw 1 3) = "GETRAW 1, 3" := by decide
theorem test_expand_rxopen : (expand .rxopen).map encode = [0x11000000, 0x03000000] := by decide

/-! ## The toy parameters of 95_test_vectors.md section 0 -/

/-- The toy scramble: `SCR_E0(f)[i] = f[(i + 1) mod 512] XOR 0x5A`. -/
def toyScramble (f : Frame) : Frame :=
  ⟨⟨(f.toList.drop 1 ++ f.toList.take 1).map (· ^^^ 0x5A)⟩, by simp⟩

/-- Its inverse: `DSCR_E0(g)[i] = g[(i - 1) mod 512] XOR 0x5A`. -/
def toyDescramble (f : Frame) : Frame :=
  ⟨⟨(f.toList.drop 511 ++ f.toList.take 511).map (· ^^^ 0x5A)⟩, by simp⟩

theorem toyDescramble_toyScramble (f : Frame) : toyDescramble (toyScramble f) = f := by
  apply Vector.toList_inj.mp
  have hl : f.toList.length = 512 := by simp
  change ((((f.toList.drop 1 ++ f.toList.take 1).map (· ^^^ 0x5A)).drop 511
    ++ ((f.toList.drop 1 ++ f.toList.take 1).map (· ^^^ 0x5A)).take 511)).map (· ^^^ 0x5A) = f.toList
  generalize f.toList = l at hl
  have h1 : (l.drop 1).length = 511 := by simp [hl]
  rw [← List.map_drop, ← List.map_take, List.drop_left' h1, List.take_left' h1, ← List.map_append,
    List.take_append_drop, List.map_map]
  simp [Function.comp_def]

/-- E.* of the toy E0: 0, 1 and 2 are known. -/
def toyCode (b : Byte) : Byte := if b.toNat < 3 then b else 0xFF

/-- E0 and L0. -/
def toy : Params where
  checksum ws := BitVec.ofNat 32 (ws.toList.foldl (fun n w => n + w.toNat) 0)
  scramble := toyScramble
  descramble := toyDescramble
  descramble_scramble := toyDescramble_toyScramble
  chip := { fw := 0x00, manuf := 0x04, product := 0x24, serial := 0x44 }
  raidPort := { model := 0x00, serial := 0x28, portState := 0x3C, level := 0x3D, state := 0x3E, memberCount := 0x3F,
                password := 0x40, rebuildPrio := 0x48, standby := ⟨0x4A, .w2⟩, rebuildProgress := ⟨0x4C, .w4⟩,
                capacity := 0x50, memberBase := 0x60 }
  member := { ready := { off := 0x00, mask := 0x01 }, lba48 := { off := 0x00, mask := 0x02 }, sataIndex := 0x01,
              baseLba := 0x04, size := 0x08 }
  item := { base := 0x00, model := 0x00, serial := 0x28, capacity := 0x3C, portType := 0x40, portSpeed := 0x41,
            pageState := 0x42, raidIndex := 0x43, memberIndex := 0x44, portNumber := 0x45 }
  sataPort := { model := 0x00, serial := 0x28, capacity := 0x3C, portType := 0x40, portSpeed := 0x41,
                pageState := 0x42, raidIndex := 0x43, memberIndex := 0x44, portNumber := 0x45, used := 0x48, fw := 0x4C }
  enums := { raidLevel := toyCode, raidState := toyCode, sataPortType := toyCode, sataPortSpeed := toyCode,
             sataPageState := toyCode,
             smartName := fun b => if b = 1 ∨ b = 5 ∨ b = 9 ∨ b = 194 then b else 0xFF,
             rebuildBand := fun v => BitVec.ofNat 8 (v.toNat / 0x4000) }

/-! ## States -/

/-- The reset state with zeros where R34 leaves the value open. -/
def zeroed : State :=
  { State.reset with fb := zeroBytes 512, pb := zeroBytes 504, magic := 0, lastSeq := 0, ckres := 0, xr := 0 }

/-- `zeroed` with some frame bytes set. -/
def withFrame (ws : List (Nat × List Byte)) : State :=
  { zeroed with fb := ws.foldl (fun f w => putBytes f w.1 w.2) (zeroBytes 512) }

/-- The ramp frame: `FB[i] = i mod 256`. -/
def ramp : State := { zeroed with fb := byteArray 512 (BitVec.ofNat 8) }

/-- `zeroed` with the host about to issue some accesses. -/
def issuing (l : List HostAccess) : State := { zeroed with pending := l }

/-- A field of the state an outcome carries. -/
def after {α : Type} (o : Host.Outcome State Fault Refusal) (f : State → α) : Option α :=
  match o with
  | .next s => some (f s)
  | .fault _ => none
  | .refused _ => none

/-! ## CE -/

theorem test_nop :
    after (execNop { ramp with status := { Status.reset with ckok := true } }) (fun t => (statusWord t.status, t.ckres))
      = some (0x01, 0) := by decide +kernel
/-- V-CK5. -/
theorem test_cksum_ramp : (cksumWith toy ramp).ckres = 0xC040C104 := by decide +kernel
/-- V-CK6. -/
theorem test_ckstamp_ramp :
    let t := ckstampWith toy ramp
    bytesAt t.fb 506 6 = [0xFA, 0xFB, 0x04, 0xC1, 0x40, 0xC0] ∧ statusWord t.status = 0 := by decide +kernel
/-- V-CK7: the stamped frame verifies. -/
theorem test_ckvfy_ok : statusWord (ckvfyWith toy (ckstampWith toy ramp)).status = 0x01 := by decide +kernel
/-- V-CK11: a mismatch sets CKBAD and is no fault. -/
theorem test_ckvfy_bad :
    let t := ckvfyWith toy { ramp with fb := putBytes (stampFrame toy ramp.fb) 8 [0x09] }
    statusWord t.status = 0x02 ∧ t.ckres = 0xC040C105 := by decide +kernel

/-! ## OC -/

/-- V-OC2. -/
theorem test_scr_ramp :
    let t := scrWith toy ramp
    bytesAt t.fb 0 4 = [0x5B, 0x58, 0x59, 0x5E] ∧ bytesAt t.fb 508 4 = [0xA7, 0xA4, 0xA5, 0x5A] := by decide +kernel
/-- V-OC3. -/
theorem test_dscr_ramp :
    let t := dscrWith toy ramp
    bytesAt t.fb 0 4 = [0xA5, 0x5A, 0x5B, 0x58] ∧ bytesAt t.fb 508 4 = [0xA1, 0xA6, 0xA7, 0xA4] := by decide +kernel

/-! ## FP -/

/-- V-FB1's start. -/
def toBuild : State :=
  { zeroed with magic := 0x11223344, plen := 4, pb := putBytes (zeroBytes 504) 0 [0xDE, 0xAD, 0xBE, 0xEF] }

/-- V-FB1. -/
theorem test_fbuild :
    let t := fbuildWith toy toBuild
    bytesAt t.fb 0 13 = [0x44, 0x33, 0x22, 0x11, 1, 0, 0, 0, 0xDE, 0xAD, 0xBE, 0xEF, 0] ∧
    bytesAt t.fb 507 5 = [0, 0x23, 0xE1, 0xE0, 0] ∧ t.ckres = 0x00E0E123 ∧ t.lastSeq = 1 ∧ t.seq = 2 ∧
    statusWord t.status = 0x20 := by decide +kernel
/-- V-FB8: E_SEQX is tested before E_PLEN. -/
theorem test_fbuild_seqx :
    let t := fbuildWith toy { toBuild with plen := 505, status := { Status.reset with seqx := true, lsv := true } }
    statusWord t.status = 0xB0 ∧ t.faultCode = 4 ∧ t.faultCmd = 0x20000000 := by decide +kernel
/-- V-G2, V-G3. -/
theorem test_getu8 : after (execGetu8 499 ramp) (·.xr) = some 0xFF ∧ after (execGetu8 500 ramp) (·.faultCode) = some 3 := by
  decide +kernel
/-- V-G4: an odd address. -/
theorem test_getu16_odd : after (execGetu16 1 ramp) (·.xr) = some 0x0E0D := by decide +kernel
/-- V-G7, V-G8. -/
theorem test_getu32 :
    after (execGetu32 496 ramp) (·.xr) = some 0xFFFEFDFC ∧ after (execGetu32 497 ramp) (·.faultCmd) = some 0x320001F1 := by
  decide +kernel
/-- V-G10. -/
theorem test_getu48 : after (execGetu48 3 ramp) (·.xr) = some 0x000014131211100F := by decide +kernel
/-- V-G13. -/
theorem test_getcap : after (execGetcap 0 ramp) (·.xr) = some 0x001E1C1A18000000 := by decide +kernel
/-- V-G14: no wrap-around. -/
theorem test_getu8_no_wrap : after (execGetu8 0 { ramp with roff := 0xFFFFFFFF }) (·.faultCode) = some 3 := by decide +kernel
/-- V-G19. -/
theorem test_getstr :
    after (execGetstr 0 8 ramp) (fun t => (bytesAt t.sr 0 10, t.slen))
      = some ([0x0D, 0x0C, 0x0F, 0x0E, 0x11, 0x10, 0x13, 0x12, 0, 0], 8) := by decide +kernel
/-- V-G25: E_LEN is tested before E_RANGE. -/
theorem test_getstr_len_first : after (execGetstr 511 66 ramp) (·.faultCode) = some 5 := by decide +kernel
/-- V-G31: the tail of an earlier result is zeroed. -/
theorem test_getraw_tail :
    after (execGetraw 1 3 (writeSr (List.replicate 8 7) ramp)) (fun t => (bytesAt t.sr 0 10, t.slen))
      = some ([0x0D, 0x0E, 0x0F, 0, 0, 0, 0, 0, 0, 0], 3) := by decide +kernel
/-- V-G27. -/
theorem test_getraw_range : after (execGetraw 499 2 ramp) (·.faultCode) = some 3 := by decide +kernel

/-! ## MD -/

/-- V-S1: with LSV = 0 no word matches. -/
theorem test_seqchk_none_built :
    after (execSeqchk { withFrame [(4, [1])] with lastSeq := 1 }) (fun t => statusWord t.status) = some 0x08 := by
  decide +kernel
/-- V-S2. -/
theorem test_seqchk_match :
    after (execSeqchk { withFrame [(4, [1])] with lastSeq := 1, status := { Status.reset with lsv := true } })
      (fun t => statusWord t.status) = some 0x24 := by decide +kernel

/-- Program P2, step 10: the firmware word, the serial number and two string bytes. -/
theorem test_decchip :
    let t := decchipWith toy (withFrame [(0x0C, [1, 2, 3, 4]), (0x10, [0x41, 0x43]), (0x30, [0x54]), (0x50, [0x78, 0x56, 0x34, 0x12])])
    bytesAt t.record 0 8 = [1, 0, 0, 0, 0, 0, 0, 0] ∧
    bytesAt t.record 0x10 11 = [1, 2, 3, 4, 0x78, 0x56, 0x34, 0x12, 0x41, 0x43, 0] ∧ byteAt t.record 0x38 = 0x54 := by
  decide +kernel
/-- V-D3: the limits of ROFF under L0. -/
theorem test_range_limits :
    (decchipWith toy { zeroed with roff := 440 }).status.flt = false ∧
    (decchipWith toy { zeroed with roff := 441 }).faultCode = 3 ∧
    (decrportWith toy { zeroed with roff := 276 }).status.flt = false ∧
    (decrportWith toy { zeroed with roff := 277 }).faultCode = 3 ∧
    (decsataWith toy { zeroed with roff := 122 }).status.flt = false ∧
    (decsataWith toy { zeroed with roff := 123 }).faultCode = 3 ∧
    (decsportWith toy { zeroed with roff := 428 }).status.flt = false ∧
    (decsportWith toy { zeroed with roff := 429 }).faultCode = 3 ∧
    (decsmartvWith toy { zeroed with roff := 130 }).status.flt = false ∧
    (decsmartvWith toy { zeroed with roff := 131 }).faultCode = 3 := by decide +kernel
/-- Program P5: level 0x09 is unknown, standby 305 ds is 30 s, capacity 100 units, member 1's flags and base LBA. -/
theorem test_decrport :
    let t := decrportWith toy (withFrame [(0x0C, [0x4F, 0x54]), (0x48, [1, 9, 1, 2]), (0x54, [0, 0x80, 0x31, 1]),
      (0x5C, [100]), (0x8C, [1, 1, 0, 0, 0, 8, 0, 0, 0x32])])
    bytesAt t.record 0x10 2 = [0x54, 0x4F] ∧
    bytesAt t.record 0x4C 9 = [1, 9, 0xFF, 1, 1, 2, 0, 0x80, 2] ∧
    bytesAt t.record 0x60 8 = [0x31, 1, 0, 0, 30, 0, 0, 0] ∧
    bytesAt t.record 0x6C 12 = [100, 0, 0, 0, 0, 0, 0, 0xC8, 0, 0, 0, 0] ∧
    bytesAt t.record 0xA0 24 = [1, 0, 1, 0, 0, 8, 0, 0, 0x32, 0, 0, 0, 0, 0, 0, 0, 0, 0, 0, 0x64, 0, 0, 0, 0] := by
  decide +kernel
/-- V-D1: item 1's capacity, enumerations and indexes, and item 4's capacity. -/
theorem test_decsata :
    let t := decsataWith toy (withFrame [(0x98, [2, 0, 0, 0, 1, 2, 7, 0, 1, 1]), (0x188, [0xFF, 0xFF, 0xFF, 0xFF])])
    bytesAt t.record 0xBC 21 = [2, 0, 0, 0, 0, 0, 0, 4, 0, 0, 0, 0, 1, 1, 2, 2, 7, 0xFF, 0, 1, 1] ∧
    bytesAt t.record 0x1DC 12 = [0xFF, 0xFF, 0xFF, 0xFF, 0, 0, 0, 0xFE, 0xFF, 0xFF, 0xFF, 1] := by decide +kernel
/-- V-D2: the used capacity and the firmware text. -/
theorem test_decsport :
    let t := decsportWith toy (withFrame [(0x54, [1, 0, 0, 0]), (0x58, [0x31, 0x30, 0x30, 0x2E, 0x41, 0x31, 0x20, 0x20])])
    bytesAt t.record 0x74 20
      = [1, 0, 0, 0, 0, 0, 0, 2, 0, 0, 0, 0, 0x30, 0x31, 0x2E, 0x30, 0x31, 0x41, 0x20, 0x20] := by decide +kernel

/-- Program P3's value frame, slots 0, 1 and 29. -/
def valuePage : State :=
  withFrame [(0x22, [5, 0x33, 0, 0x64, 0x64, 7]), (0x2E, [0, 0xAA, 0xAA, 0xAA]), (0x17E, [9, 0x32, 0, 0x63, 0x63, 0xAB, 0x12])]

/-- Program P3's threshold frame, with the value record in REC. -/
def thresholdPage : State :=
  { withFrame [(0x22, [0, 0x0A]), (0x2E, [7, 0x63]), (0x17E, [9, 0x14])] with
    record := (decsmartvWith toy valuePage).record
    status := { Status.reset with ckok := true } }

/-- Program P3, step 4. -/
theorem test_decsmartv :
    let t := decsmartvWith toy valuePage
    bytesAt t.record 0x20 17 = [5, 5, 0x33, 0, 0x64, 0x64, 0, 0, 7, 0, 0, 0, 0, 0, 0, 0, 0] ∧
    bytesAt t.record 0x1F0 16 = [9, 9, 0x32, 0, 0x63, 0x63, 0, 0, 0xAB, 0x12, 0, 0, 0, 0, 0, 0] := by decide +kernel
/-- Program P3, step 8: by position, absent slots untouched, RFLAGS bits 2 and 3. -/
theorem test_decsmartt :
    after (execDecsmartt thresholdPage)
      (fun t => (bytesAt t.record 4 1, bytesAt t.record 0x20 8, byteAt t.record 0x36, byteAt t.record 0x1F6))
      = some ([0x0C], [5, 5, 0x33, 0, 0x64, 0x64, 0x0A, 0], 0, 0x14) := by decide +kernel
/-- V-D4 (b): E_KIND is tested before E_RANGE. -/
theorem test_decsmartt_kind : after (execDecsmartt { zeroed with roff := 200 }) (·.faultCode) = some 6 := by decide +kernel

/-! ## The host window and the step -/

/-- V-B2: little-endian, and one array at every width. -/
theorem test_window_little_endian :
    let s := areaWrite .fb 0 4 0x11223344 zeroed
    windowRead s 0 .byte = some 0x44 ∧ windowRead s 3 .byte = some 0x11 ∧ windowRead s 2 .half = some 0x1122 ∧
    windowRead s 0 .word = some 0x11223344 := by decide +kernel
/-- V-B4, V-B6, V-B7, V-B8: illegal reads. -/
theorem test_window_illegal_reads :
    windowRead zeroed 0x400 .word = none ∧ windowRead zeroed 0x404 .half = none ∧ windowRead zeroed 2 .word = none ∧
    windowRead zeroed 0x3F8 .word = none ∧ windowRead zeroed 0x434 .word = none ∧ windowRead zeroed 0x7FF .byte = none ∧
    windowRead zeroed 0xFFC .word = none ∧ windowRead zeroed 4096 .byte = none := by decide +kernel
/-- V-B5, V-B6: writes to read-only rows and of a wrong size, and a legal one. -/
theorem test_window_writes :
    legalWrite false 0x404 .word = none ∧ legalWrite false 0x440 .byte = none ∧ legalWrite false 0x400 .half = none ∧
    legalWrite false 0x3F7 .byte = some (.pb, 503) ∧ legalWrite false 0x41C .word = some (.plen, 0) := by decide +kernel
/-- V-B1: registers after reset. -/
theorem test_reset_registers :
    [0x404, 0x408, 0x40C, 0x414, 0x41C, 0x420, 0x430, 0x800, 0x440].map (fun o => windowRead State.reset o .word)
      = [some 0, some 0, some 0, some 1, some 0, some 0x0C, some 0, some 0, some 0] := by decide +kernel
/-- V-CK9: any FB write clears the flags. -/
theorem test_step_fb_write_clears :
    after (step { issuing [.write 0 .byte 0] with status := { Status.reset with ckok := true, lsv := true } })
      (fun t => (statusWord t.status, t.response)) = some (0x20, .done) := by decide +kernel
/-- V-E4: an illegal word is E_OPC. -/
theorem test_step_illegal_word :
    after (step (issuing [.write 0x400 .word 0x30010000])) (fun t => (statusWord t.status, t.faultCode, t.faultCmd))
      = some (0x80, 1, 0x30010000) := by decide +kernel
/-- V-B11: a frozen block refuses every write. -/
theorem test_step_frozen :
    after (step { issuing [.write 0x41C .word 4] with status := { Status.reset with flt := true } })
      (fun t => (t.plen, t.response)) = some (0, .busError) := by decide +kernel
/-- V-B13: reset leaves the frozen state. -/
theorem test_step_reset :
    after (step { issuing [.reset] with status := { Status.reset with flt := true }, seq := 9 })
      (fun t => (t.status.flt, t.seq, t.roff, t.resetCount)) = some (false, 1, 0x0C, 1) := by decide +kernel
/-- The step runs the word `withFetchWord` places. -/
theorem test_step_fetch :
    after (step (ramp.withFetchWord 32 0x31000001)) (·.xr) = some 0x0E0D := by decide +kernel

/-! ## The statements' hypotheses can be met

One theorem for each statement that has hypotheses, named after it: a concrete state and operands that meet all of them
together, and for a statement of several clauses the operands at which each clause starts and ends. -/

/-- A frame's own words (R7). -/
theorem frameWords_checksumWords (f : Frame) : FrameWords f (checksumWords f) := by
  intro k h
  rw [checksumWords_getElem f k h, wordAt_eq f k (by omega)]

/-- A stamped frame holds its stamp (R7, R110). -/
theorem holdsChecksum_putWord (f : Frame) (w : Word) : HoldsChecksum (putWord f 127 w) w := by
  have h : ∀ j < 4, byteAt (putWord f 127 w) (508 + j) = w.extractLsb' (8 * j) 8 := by
    intro j hj
    unfold putWord
    rw [byteAt_putBytes_of_in _ _ _ _ (by simp; omega) (by omega), show 508 + j - 4 * 127 = j by omega,
      bytesOfNat_getElem?, if_pos hj]
    apply BitVec.eq_of_toNat_eq
    interval_cases j <;> simp [BitVec.extractLsb'_toNat, Nat.shiftRight_eq_div_pow]
  exact ⟨h 0 (by omega), h 1 (by omega), h 2 (by omega), h 3 (by omega)⟩

/-- No layout fits a slice that starts past the frame (R21). -/
theorem layouts_outside (s : State) (h : s.roff = 512) :
    ¬FieldsInFrame s (chipFields Config.params.chip) ∧
    ¬FieldsInFrame s (raidPortFields Config.params.raidPort Config.params.member) ∧
    ¬FieldsInFrame s (sataFields Config.params.item) ∧ ¬FieldsInFrame s (sataPortFields Config.params.sataPort) := by
  have key : ∀ (f : Field) (fields : List Field), 0 < fieldExtent f → ¬FieldsInFrame s (f :: fields) := by
    intro f fields hf hc
    have := hc f List.mem_cons_self
    rw [h, show BitVec.toNat (512 : Word) = 512 from rfl] at this
    omega
  exact ⟨key _ _ (by decide), key _ _ (by decide), key _ _ (by decide), key _ _ (by decide)⟩

/-- `zeroed` with the slice at the frame's first byte. -/
def sliceAtZero : State := { zeroed with roff := 0 }

/-- A frame all of whose bytes are the unknown RAID level. -/
def allNine : State := { sliceAtZero with fb := Vector.replicate 512 9 }

/-- A stamped frame that CKVFY has found good, with the host about to write one byte of it. -/
def verified : State :=
  { issuing [.write 8 .byte 9] with
    fb := stampFrame Config.params (zeroBytes 512)
    status := { Status.reset with ckok := true } }

/-- A block that faulted, with the host about to read FAULT. -/
def frozen : State :=
  { issuing [.read 0x408 .word] with status := { Status.reset with flt := true }, faultCode := 3, faultCmd := 0x300001FF }

theorem test_meets_DecodeOfEncode :
    (Instr.getstr 0 0).wf = true ∧ (Instr.getraw 511 255).wf = true ∧ (Instr.getu8 511).wf = true := by decide
theorem test_meets_EncodeOfDecode : decode 0x36FF01FF = .ok (.getraw 511 255) := by decide
/-- The four cases of R64, each at the edge of its field. -/
theorem test_meets_IllegalWordsTakeOpcodeFault :
    zeroed.status.flt = false ∧ (issuing [.write 0x400 .word 0x04000000]).pending = [.write 0x400 .word 0x04000000] ∧
    IllegalWord 0x04000000 ∧ IllegalWord 0x35000200 ∧ IllegalWord 0x36008000 ∧ IllegalWord 0x01010000 ∧
    IllegalWord 0x00000001 ∧ IllegalWord 0x46000100 ∧ IllegalWord 0x34800000 :=
  ⟨rfl, rfl, by decide +kernel, by decide +kernel, by decide +kernel, by decide +kernel, by decide +kernel,
    by decide +kernel, by decide +kernel⟩
theorem test_meets_StepRunsDecodedOperation :
    (issuing [.write 0x400 .word 0x310001FF]).status.flt = false ∧
    (issuing [.write 0x400 .word 0x310001FF]).pending = [.write 0x400 .word 0x310001FF] ∧
    decode 0x310001FF = .ok (.getu16 511) ∧ 0x46000000 < 2 ^ 32 ∧
    decode (BitVec.ofNat 32 0x46000000) = .ok .decsmartt ∧ zeroed.pending = [] := by decide
/-- Where each range of R41 ends, and the first access past it. -/
theorem test_meets_HostReadsAnswerOrRefuse :
    (issuing [.read 0x3F4 .word]).pending = [.read 0x3F4 .word] ∧
    (∀ p ∈ [(0, 4), (0x3F7, 1), (0x3F4, 4), (0x404, 4), (0x430, 4), (0x440, 1), (0x47E, 2), (0x800, 4), (0xBFC, 4)],
      ReadLegal p.1 p.2) ∧
    ∀ p ∈ [(1, 2), (0x3F8, 1), (0x400, 4), (0x404, 2), (0x434, 4), (0x480, 1), (0x7FF, 1), (0xC00, 4), (0x1000, 1)],
      ¬ReadLegal p.1 p.2 := by decide
/-- A frozen block, and in a running one the first offsets that are not writable. -/
theorem test_meets_IllegalWritesAreRefused :
    frozen.status.flt = true ∧ (issuing [.write 0x3F8 .byte 0]).pending = [.write 0x3F8 .byte 0] ∧
    ∀ p ∈ [(0x3F8, 1), (0x404, 4), (0x400, 2), (0x440, 1), (0x800, 4), (0x41E, 2), (0x424, 4), (0x1000, 4)],
      ¬WriteLegal p.1 p.2 := by decide
theorem test_meets_ArrayReadsAreLittleEndian :
    (issuing [.read 0x47F .byte]).pending = [.read 0x47F .byte] ∧ memByte zeroed 0x47F = some 0 ∧
    (issuing [.read 0x1FE .half]).pending = [.read 0x1FE .half] ∧ memByte zeroed 0x1FE = some 0 ∧
    memByte zeroed 0x1FF = some 0 ∧ (issuing [.read 0xBFC .word]).pending = [.read 0xBFC .word] ∧
    [0xBFC, 0xBFD, 0xBFE, 0xBFF].map (memByte zeroed) = List.replicate 4 (some 0) := by decide +kernel
/-- The first and the last register, and STATUS with every flag set. -/
theorem test_meets_RegisterReads :
    (issuing [.read 0x430 .word]).pending = [.read 0x430 .word] ∧
    windowRead zeroed 0x404 .word = some 0 ∧ windowRead zeroed 0x430 .word = some 0 ∧
    windowRead { zeroed with status := ⟨true, true, true, true, true, true, true⟩ } 0x404 .word = some 0xBF := by
  decide +kernel
theorem test_meets_HostWritesToFrameBuffer :
    (issuing [.write 0x1FC .word 1]).status.flt = false ∧
    (issuing [.write 0x1FC .word 1]).pending = [.write 0x1FC .word 1] ∧ 0x1FC % accessBytes .word = 0 ∧
    0x1FC + accessBytes .word ≤ 512 := by decide
theorem test_meets_HostWritesToPayloadBuffer :
    (issuing [.write 0x3F6 .half 1]).status.flt = false ∧
    (issuing [.write 0x3F6 .half 1]).pending = [.write 0x3F6 .half 1] ∧ 0x3F6 % accessBytes .half = 0 ∧ 512 ≤ 0x3F6 ∧
    0x3F6 + accessBytes .half ≤ 0x3F8 := by decide
theorem test_meets_HostWritesToRegisters :
    zeroed.status.flt = false ∧ (issuing [.write 0x410 .word 1]).pending = [.write 0x410 .word 1] ∧
    (issuing [.write 0x41C .word 1]).pending = [.write 0x41C .word 1] ∧
    (issuing [.write 0x420 .word 1]).pending = [.write 0x420 .word 1] := by decide
theorem test_meets_ResetLeavesTableValues : { frozen with pending := [.reset] }.pending = [.reset] := rfl
theorem test_meets_FrozenBlockStaysFrozen :
    frozen.status.flt = true ∧ (∀ rest, frozen.pending ≠ .reset :: rest) ∧ ∃ t, step frozen = .next t :=
  ⟨rfl, by intro rest h; simp [frozen, issuing] at h, _, rfl⟩
theorem test_meets_NopChangesNothing : ramp.status.flt = false := rfl
theorem test_meets_CksumResult : ramp.status.flt = false ∧ FrameWords ramp.fb (checksumWords ramp.fb) :=
  ⟨rfl, frameWords_checksumWords _⟩
theorem test_meets_CkstampResult : ramp.status.flt = false ∧ FrameWords ramp.fb (checksumWords ramp.fb) :=
  ⟨rfl, frameWords_checksumWords _⟩
/-- Both verdicts: the stamped frame, and one stamped with another word. -/
theorem test_meets_CkvfyResult :
    verified.status.flt = false ∧
    (FrameWords verified.fb (checksumWords verified.fb) ∧
      HoldsChecksum verified.fb (Config.params.checksum (checksumWords verified.fb))) ∧
    ∃ (f : Frame) (w : Word), FrameWords f (checksumWords f) ∧ HoldsChecksum f w ∧
      Config.params.checksum (checksumWords f) ≠ w := by
  refine ⟨rfl, ⟨frameWords_checksumWords _, ?_⟩, putWord ramp.fb 127 (frameChecksum Config.params ramp.fb + 1), _,
    frameWords_checksumWords _, holdsChecksum_putWord _ _, ?_⟩
  · have e : Config.params.checksum (checksumWords verified.fb) = frameChecksum Config.params (zeroBytes 512) :=
      frameChecksum_putWord127 Config.params _ _
    rw [e]
    exact holdsChecksum_putWord _ _
  · rw [show Config.params.checksum (checksumWords (putWord ramp.fb 127 (frameChecksum Config.params ramp.fb + 1)))
      = frameChecksum Config.params ramp.fb from frameChecksum_putWord127 Config.params _ _]
    intro h
    have := congrArg (fun w : Word => w - frameChecksum Config.params ramp.fb) h
    simp at this
/-- Two frames that differ in byte 511 only. -/
theorem test_meets_CksumIgnoresWord127 :
    (∀ i < 508, byteAt ramp.fb i = byteAt (putBytes ramp.fb 511 [0]) i) ∧ (∃ t, exec .cksum ramp = .next t) ∧
    ∃ t, exec .cksum { ramp with fb := putBytes ramp.fb 511 [0] } = .next t :=
  ⟨fun i h => (byteAt_putBytes_of_out _ _ _ _ (by omega)).symm, ⟨_, rfl⟩, ⟨_, rfl⟩⟩
theorem test_meets_StampedFrameVerifies : ramp.status.flt = false ∧ ∃ t, exec .ckstamp ramp = .next t := ⟨rfl, _, rfl⟩
theorem test_meets_StampIsIdempotent : ramp.status.flt = false ∧ ∃ t, exec .ckstamp ramp = .next t := ⟨rfl, _, rfl⟩
theorem test_meets_CodecResult : ramp.status.flt = false := rfl
theorem test_meets_CodecRoundTrips :
    ramp.status.flt = false ∧ (∃ t, exec .scr ramp = .next t) ∧ ∃ t, exec .dscr ramp = .next t := ⟨rfl, ⟨_, rfl⟩, _, rfl⟩
/-- The longest payload FBUILD takes. -/
theorem test_meets_BuiltFrameSurvivesCodec :
    let s := { toBuild with plen := 504 }
    s.status.flt = false ∧ s.status.seqx = false ∧ s.plen.toNat ≤ 504 := by decide
/-- Each fault, then no payload, the longest one, and the last sequence number. -/
theorem test_meets_FbuildResult :
    (let s := { toBuild with plen := 505, status := { Status.reset with seqx := true, lsv := true } };
      s.status.flt = false ∧ s.status.seqx = true) ∧
    (let s := { toBuild with plen := 505 };
      s.status.flt = false ∧ s.status.seqx = false ∧ 504 < s.plen.toNat) ∧
    (let s := { toBuild with plen := 0 };
      s.status.flt = false ∧ s.status.seqx = false ∧ s.plen.toNat ≤ 504) ∧
    (let s := { toBuild with plen := 504, seq := 0xFFFFFFFF };
      s.status.flt = false ∧ s.status.seqx = false ∧ s.plen.toNat ≤ 504) := by decide
theorem test_meets_FbuildIgnoresPayloadPast500 :
    ∀ n ∈ [501, 504], let s := { toBuild with plen := n };
      s.status.flt = false ∧ s.status.seqx = false ∧ 500 < s.plen.toNat ∧ s.plen.toNat ≤ 504 ∧
      (∃ t, exec .fbuild s = .next t) ∧ ∃ u, exec .fbuild { s with plen := 500 } = .next u := by
  intro n h
  refine ⟨rfl, rfl, ?_, ?_, ⟨_, rfl⟩, ⟨_, rfl⟩⟩ <;> (simp only [List.mem_cons, List.not_mem_nil, or_false] at h) <;>
    rcases h with rfl | rfl <;> decide
/-- A block that built one frame is about to build its second. -/
theorem test_meets_SequenceNumbersIncrease :
    let s := { toBuild with seq := 2, lastSeq := 1, status := { Status.reset with lsv := true } }
    SequenceShape s ∧ s.status.flt = false ∧ s.status.seqx = false ∧ s.plen.toNat ≤ 504 ∧ s.status.lsv = true :=
  ⟨⟨by decide, by decide, by decide⟩, rfl, rfl, by decide, rfl⟩
/-- The last offset in range and the first one out of it, here and in the next four. -/
theorem test_meets_Getu8Result :
    zeroed.status.flt = false ∧ (499 ≤ 511 ∧ zeroed.roff.toNat + 499 + 1 ≤ 512) ∧
    (500 ≤ 511 ∧ 512 < zeroed.roff.toNat + 500 + 1) := by decide
theorem test_meets_Getu16Result :
    zeroed.status.flt = false ∧ (498 ≤ 511 ∧ zeroed.roff.toNat + 498 + 2 ≤ 512) ∧
    (499 ≤ 511 ∧ 512 < zeroed.roff.toNat + 499 + 2) := by decide
theorem test_meets_Getu32Result :
    zeroed.status.flt = false ∧ (496 ≤ 511 ∧ zeroed.roff.toNat + 496 + 4 ≤ 512) ∧
    (497 ≤ 511 ∧ 512 < zeroed.roff.toNat + 497 + 4) := by decide
theorem test_meets_Getu48Result :
    zeroed.status.flt = false ∧ (494 ≤ 511 ∧ zeroed.roff.toNat + 494 + 6 ≤ 512) ∧
    (495 ≤ 511 ∧ 512 < zeroed.roff.toNat + 495 + 6) := by decide
theorem test_meets_GetcapResult :
    zeroed.status.flt = false ∧ (496 ≤ 511 ∧ zeroed.roff.toNat + 496 + 4 ≤ 512) ∧
    (497 ≤ 511 ∧ 512 < zeroed.roff.toNat + 497 + 4) := by decide
/-- The lengths next to each limit, the first field out of range and the last one in it; here and in the next. -/
theorem test_meets_GetstrResult :
    zeroed.status.flt = false ∧ (∀ len ∈ [0, 1, 63, 65, 66, 255], len ≤ 255 ∧ (len < 2 ∨ 64 < len ∨ len % 2 = 1)) ∧
    (437 ≤ 511 ∧ 64 ≤ 255 ∧ 2 ≤ 64 ∧ 64 ≤ 64 ∧ 64 % 2 = 0 ∧ 512 < zeroed.roff.toNat + 437 + 64) ∧
    (498 ≤ 511 ∧ 2 ≤ 255 ∧ 2 ≤ 2 ∧ 2 ≤ 64 ∧ 2 % 2 = 0 ∧ zeroed.roff.toNat + 498 + 2 ≤ 512) := by decide
theorem test_meets_GetrawResult :
    zeroed.status.flt = false ∧ (∀ len ∈ [0, 65, 255], len ≤ 255 ∧ (len < 1 ∨ 64 < len)) ∧
    (500 ≤ 511 ∧ 1 ≤ 255 ∧ 1 ≤ 1 ∧ 1 ≤ 64 ∧ 512 < zeroed.roff.toNat + 500 + 1) ∧
    (436 ≤ 511 ∧ 64 ≤ 255 ∧ 1 ≤ 64 ∧ 64 ≤ 64 ∧ zeroed.roff.toNat + 436 + 64 ≤ 512) := by decide
/-- A match, and both grounds for a mismatch. -/
theorem test_meets_SeqchkResult :
    let s := { withFrame [(4, [1])] with lastSeq := 1, status := { Status.reset with lsv := true } }
    s.status.flt = false ∧ (1 : Word) = byteAt s.fb 7 ++ byteAt s.fb 6 ++ byteAt s.fb 5 ++ byteAt s.fb 4 ∧
    (s.status.lsv = true ∧ (1 : Word) = s.lastSeq) ∧ zeroed.status.lsv = false ∧
    (0 : Word) = byteAt zeroed.fb 7 ++ byteAt zeroed.fb 6 ++ byteAt zeroed.fb 5 ++ byteAt zeroed.fb 4 ∧
    (0 : Word) ≠ s.lastSeq := by decide +kernel
/-- The layouts of L0 fit the default slice and the last one the field ends allow; here and in the next four. Were L0 the
machine's own layout, the statement's second clause would have the same witness. -/
theorem test_meets_DecchipResult :
    (zeroed.status.flt = false ∧ FieldsInFrame zeroed (chipFields toy.chip) ∧
      FieldsInFrame { zeroed with roff := 440 } (chipFields toy.chip)) ∧
    (Config.params = toy → FieldsInFrame zeroed (chipFields Config.params.chip)) :=
  ⟨⟨rfl, by decide, by decide⟩, fun h => by rw [h]; decide⟩
theorem test_meets_DecrportResult :
    (zeroed.status.flt = false ∧ FieldsInFrame zeroed (raidPortFields toy.raidPort toy.member) ∧
      FieldsInFrame { zeroed with roff := 276 } (raidPortFields toy.raidPort toy.member)) ∧
    (Config.params = toy → FieldsInFrame zeroed (raidPortFields Config.params.raidPort Config.params.member)) :=
  ⟨⟨rfl, by decide, by decide⟩, fun h => by rw [h]; decide⟩
/-- The first and the last member. -/
theorem test_meets_DecrportMembers :
    (zeroed.status.flt = false ∧ FieldsInFrame zeroed (raidPortFields toy.raidPort toy.member) ∧
      0x080 = 0x080 + 0x20 * 0 ∧ 12 + 0x60 = zeroed.roff.toNat + (toy.raidPort.memberBase + 0x20 * 0) ∧
      0x100 = 0x080 + 0x20 * 4 ∧ 12 + 0xE0 = zeroed.roff.toNat + (toy.raidPort.memberBase + 0x20 * 4)) ∧
    (Config.params = toy → FieldsInFrame zeroed (raidPortFields Config.params.raidPort Config.params.member)) :=
  ⟨⟨rfl, by decide, rfl, rfl, rfl, rfl⟩, fun h => by rw [h]; decide⟩
theorem test_meets_DecsataResult :
    (zeroed.status.flt = false ∧ FieldsInFrame zeroed (sataFields toy.item) ∧
      FieldsInFrame { zeroed with roff := 122 } (sataFields toy.item)) ∧
    (Config.params = toy → FieldsInFrame zeroed (sataFields Config.params.item)) :=
  ⟨⟨rfl, by decide, by decide⟩, fun h => by rw [h]; decide⟩
theorem test_meets_DecsportResult :
    (zeroed.status.flt = false ∧ FieldsInFrame zeroed (sataPortFields toy.sataPort) ∧
      FieldsInFrame { zeroed with roff := 428 } (sataPortFields toy.sataPort)) ∧
    (Config.params = toy → FieldsInFrame zeroed (sataPortFields Config.params.sataPort)) :=
  ⟨⟨rfl, by decide, by decide⟩, fun h => by rw [h]; decide⟩
/-- The last slice offset in range, a present slot and an absent one. -/
theorem test_meets_DecsmartvResult :
    let s := { allNine with roff := 130 }
    s.status.flt = false ∧ s.roff.toNat + 382 ≤ 512 ∧
    byteAt s.fb (s.roff.toNat + (0x16 + 0x0C * 29) + Config.params.smart.id) ≠ 0 ∧
    byteAt sliceAtZero.fb (sliceAtZero.roff.toNat + (0x16 + 0x0C * 29) + Config.params.smart.id) = 0 := by
  refine ⟨rfl, by decide, ?_, byteAt_zeroBytes _ _⟩
  have h := Config.params.smart.id_inside
  have e : ∀ i < 512, byteAt (Vector.replicate 512 (9 : Byte)) i = 9 := by
    intro i hi
    simp [byteAt, hi]
  show byteAt (Vector.replicate 512 (9 : Byte)) (130 + (0x16 + 0x0C * 29) + Config.params.smart.id) ≠ 0
  rw [e _ (by omega)]
  decide
/-- A SMART record in range, no record, and a SMART record at the first slice offset out of range. -/
theorem test_meets_DecsmarttResult :
    (thresholdPage.status.flt = false ∧ natAt thresholdPage.record 0x000 4 = 5 ∧
      thresholdPage.roff.toNat + 382 ≤ 512) ∧
    (zeroed.status.flt = false ∧ natAt zeroed.record 0x000 4 ≠ 5) ∧
    (let s := { thresholdPage with roff := 131 };
      s.status.flt = false ∧ natAt s.record 0x000 4 = 5 ∧ 512 < s.roff.toNat + 382) := by decide +kernel
/-- DECSMARTV on a frame of nines, DECSMARTT on a frame of zeros; and on a frame of zeros, an absent slot. -/
theorem test_meets_SmartPagesMergeByPosition :
    allNine.status.flt = false ∧ allNine.roff.toNat + 382 ≤ 512 ∧
    (∃ t, exec .decsmartv allNine = .next t ∧
      ∃ u, exec .decsmartt { t with fb := zeroBytes 512, status := Status.reset } = .next u) ∧
    byteAt allNine.fb (allNine.roff.toNat + (0x16 + 0x0C * 0) + Config.params.smart.id) ≠ 0 ∧
    byteAt sliceAtZero.fb (sliceAtZero.roff.toNat + (0x16 + 0x0C * 0) + Config.params.smart.id) = 0 := by
  refine ⟨rfl, by decide, ⟨_, rfl, _, rfl⟩, ?_, byteAt_zeroBytes _ _⟩
  have h := Config.params.smart.id_inside
  have e : ∀ i < 512, byteAt (Vector.replicate 512 (9 : Byte)) i = 9 := by
    intro i hi
    simp [byteAt, hi]
  show byteAt (Vector.replicate 512 (9 : Byte)) (0 + (0x16 + 0x0C * 0) + Config.params.smart.id) ≠ 0
  rw [e _ (by omega)]
  decide
theorem test_meets_DecoderRangeFaults :
    let s := { zeroed with roff := 512 }
    s.status.flt = false ∧ ¬FieldsInFrame s (chipFields Config.params.chip) ∧
    ¬FieldsInFrame s (raidPortFields Config.params.raidPort Config.params.member) ∧
    ¬FieldsInFrame s (sataFields Config.params.item) ∧ ¬FieldsInFrame s (sataPortFields Config.params.sataPort) ∧
    512 < ({ zeroed with roff := 131 } : State).roff.toNat + 382 :=
  have h := layouts_outside { zeroed with roff := 512 } rfl
  ⟨rfl, h.1, h.2.1, h.2.2.1, h.2.2.2, by decide⟩
theorem test_meets_UnknownRaidLevelIsMarked :
    (allNine.status.flt = false ∧ FieldsInFrame allNine (raidPortFields toy.raidPort toy.member) ∧
      byteAt allNine.fb (fieldAddr allNine toy.raidPort.level) = 0x09) ∧
    (Config.params = toy → FieldsInFrame allNine (raidPortFields Config.params.raidPort Config.params.member)) :=
  ⟨⟨rfl, by decide, by decide⟩, fun h => by rw [h]; decide⟩
/-- Each decoder at L0; DECSMARTV at the machine's own parameters. -/
theorem test_meets_DecodersForgetTheOldRecord :
    zeroed.status.flt = false ∧ (∀ d ∈ zeroingDecoders, (d.2 toy zeroed).status.flt = false) ∧
    (Instr.decsmartv, decsmartvWith) ∈ zeroingDecoders ∧ ∃ t, exec .decsmartv zeroed = .next t ∧ t.status.flt = false := by
  refine ⟨rfl, ?_, by simp [zeroingDecoders], _, rfl, rfl⟩
  simp only [zeroingDecoders, List.forall_mem_cons]
  decide +kernel
/-- An illegal word, and an operation's own fault. -/
theorem test_meets_FaultsArePrecise :
    ramp.status.flt = false ∧ (∃ t, command 0x04000000 ramp = .next t ∧ t.status.flt = true) ∧
    ∃ t, command 0x300001F4 ramp = .next t ∧ t.status.flt = true := ⟨rfl, ⟨_, rfl, rfl⟩, _, rfl, rfl⟩
theorem test_meets_FaultCodesByOperation :
    ramp.status.flt = false ∧ ∃ t, exec (.getu8 500) ramp = .next t ∧ t.status.flt = true := ⟨rfl, _, rfl, rfl⟩
/-- A step of each kind the statement names. -/
theorem test_meets_OnlyFbuildMovesTheCounter :
    (∃ t, step verified = .next t) ∧ (∃ t, step (issuing [.reset]) = .next t) ∧
    ∃ t, step { toBuild with pending := [.write 0x400 .word 0x20000000] } = .next t :=
  ⟨⟨_, rfl⟩, ⟨_, rfl⟩, ⟨_, rfl⟩⟩
theorem test_meets_OperationsWriteOnlyTheirArrays : ∃ t, exec (.getraw 1 3) ramp = .next t ∧ t.slen ≠ ramp.slen :=
  ⟨_, rfl, by decide +kernel⟩
theorem test_meets_FrameChangeClearsVerdicts :
    ∃ t, step (issuing [.write 8 .byte 9]) = .next t ∧ t.fb ≠ (issuing [.write 8 .byte 9]).fb := by
  refine ⟨_, rfl, ?_⟩
  intro h
  have := congrArg (fun f : Frame => byteAt f 8) h
  revert this
  decide +kernel
/-- With CKOK = 1. -/
theorem test_meets_StepKeepsVerdicts :
    VerdictsExclusive verified ∧ VerdictsSound verified ∧ verified.status.ckok = true ∧ ∃ t, step verified = .next t := by
  refine ⟨⟨by decide, by decide⟩, ⟨fun _ => ?_, fun h => absurd h (by decide)⟩, rfl, _, rfl⟩
  show frameChecksum Config.params (stampFrame Config.params (zeroBytes 512)) = wordAt (stampFrame Config.params (zeroBytes 512)) 127
  unfold stampFrame
  rw [frameChecksum_putWord127, wordAt_putWord_same _ _ _ (by decide)]
theorem test_meets_StepKeepsStringTail :
    (let s := { issuing [.write 0x400 .word 0x36030001] with sr := putBytes (zeroBytes 64) 0 [7], slen := 1 };
      StringTailZero s) ∧ ∃ t, step (issuing [.write 0x400 .word 0x36030001]) = .next t := by
  refine ⟨⟨by decide, fun i h1 h2 => ?_⟩, _, rfl⟩
  have h1 : 1 ≤ i := h1
  show byteAt (putBytes (zeroBytes 64) 0 [7]) i = 0
  rw [byteAt_putBytes_of_out _ _ _ _ (by simp; omega), byteAt_zeroBytes]
/-- About to use the last sequence number. -/
theorem test_meets_StepKeepsSequenceShape :
    let s := { toBuild with
      seq := 0xFFFFFFFF, lastSeq := 0xFFFFFFFE, status := { Status.reset with lsv := true }
      pending := [.write 0x400 .word 0x20000000] }
    SequenceShape s ∧ ∃ t, step s = .next t := ⟨⟨by decide, by decide, by decide⟩, _, rfl⟩
theorem test_meets_StepKeepsFaultShape :
    FaultShape frozen ∧ (∃ t, step frozen = .next t) ∧
    FaultShape (issuing [.write 0x400 .word 0x04000000]) ∧ ∃ t, step (issuing [.write 0x400 .word 0x04000000]) = .next t :=
  ⟨⟨by decide, by decide⟩, ⟨_, rfl⟩, ⟨by decide, by decide⟩, ⟨_, rfl⟩⟩
/-- A SMART record with one present slot before its merge. -/
def smartRecord : Vector Byte 1024 := putFields (zeroBytes 1024) [putNat 0x000 4 5, putNat 0x004 4 1, (0x020, [5])]

/-- Every byte of `smartRecord` but three is zero. -/
theorem smartRecord_zero (i : Nat) (h0 : i ≠ 0) (h4 : i ≠ 4) (h32 : i ≠ 32) : byteAt smartRecord i = 0 := by
  by_cases h : i < 8
  · interval_cases i <;> first | contradiction | decide +kernel
  · unfold smartRecord
    rw [byteAt_putFields_of_out _ _ _ (by simp [putNat]; omega), byteAt_zeroBytes]

theorem test_meets_StepKeepsRecordShape :
    RecordShape smartRecord ∧ recordKind smartRecord = 5 ∧
    ∃ t, step { issuing [.write 0x400 .word 0x46000000] with record := smartRecord } = .next t := by
  have hk : recordKind smartRecord = 5 := by decide +kernel
  have hf : recordFlags smartRecord = 1 := by decide +kernel
  refine ⟨⟨by omega, by omega, by omega, ?_, ?_, ?_, ?_⟩, hk, _, rfl⟩
  · intro off h hn
    rw [hk] at hn
    refine smartRecord_zero off ?_ ?_ ?_ <;> (rintro rfl; revert hn; decide)
  · intro _ i hi h j hj
    have : i ≠ 0 := by rintro rfl; revert h; decide +kernel
    unfold slotRecord
    exact smartRecord_zero _ (by omega) (by omega) (by omega)
  · intro _ i hi
    unfold slotRecord
    exact ⟨smartRecord_zero _ (by omega) (by omega) (by omega), smartRecord_zero _ (by omega) (by omega) (by omega)⟩
  · intro _ _ i hi
    unfold slotRecord
    exact smartRecord_zero _ (by omega) (by omega) (by omega)

end Sys2Proof.Machine.Tests
end

/-! PROOF. The codec's round trips (R92): the law of R5 in one order, the finiteness of the frames for the other. -/

namespace Sys2Proof.Machine

/-- SCR answers the state of `scrWith` (R90). -/
theorem exec_scr (s : State) : exec .scr s = .next (scrWith Config.params s) := rfl

/-- DSCR answers the state of `dscrWith` (R91). -/
theorem exec_dscr (s : State) : exec .dscr s = .next (dscrWith Config.params s) := rfl

@[simp] theorem scrWith_fb (P : Params) (s : State) : (scrWith P s).fb = P.scramble s.fb := rfl

@[simp] theorem dscrWith_fb (P : Params) (s : State) : (dscrWith P s).fb = P.descramble s.fb := rfl

/-- There are finitely many frames: a frame is its 512 bytes. -/
theorem finite_frame : Finite Frame := by
  have finite_byte : Finite Byte := Finite.of_equiv (Fin (2 ^ 8)) (BitVec.equivFin (m := 8)).symm.toEquiv
  refine Finite.of_injective (fun (f : Frame) (i : Fin 512) => f[i]) fun f g h => ?_
  exact Vector.ext fun i hi => congrFun h ⟨i, hi⟩

/-- R92 (b): `P_SCR` is injective by R5's law, so on finitely many frames it is onto, and its left inverse is its inverse. -/
theorem scramble_descramble (P : Params) (f : Frame) : P.scramble (P.descramble f) = f := by
  have left_inv : Function.LeftInverse P.descramble P.scramble := P.descramble_scramble
  have surj : Function.Surjective P.scramble :=
    have := finite_frame
    Finite.surjective_of_injective left_inv.injective
  exact left_inv.rightInverse_of_surjective surj f

/-- Settles O26: R5's law for SCR then DSCR, and its converse on the finite set of frames for DSCR then SCR. -/
theorem codecRoundTrips : Obligations.CodecRoundTrips := by
  unfold Obligations.CodecRoundTrips
  intro s t _
  constructor
  · intro h
    rw [exec_scr, Host.Outcome.next.injEq] at h
    subst h
    exact ⟨_, exec_dscr _, by rw [dscrWith_fb, scrWith_fb, Config.params.descramble_scramble]⟩
  · intro h
    rw [exec_dscr, Host.Outcome.next.injEq] at h
    subst h
    exact ⟨_, exec_scr _, by rw [scrWith_fb, dscrWith_fb, scramble_descramble]⟩

end Sys2Proof.Machine

/-! PROOF. DECRPORT (R128) with its fields in range: where its field writes go, and what it leaves in the two bytes of the
RAID level. -/

namespace Sys2Proof.Machine

/-- A decoder's result at every parameter choice is also that of `exec`, whose arm is the operation at the machine's own. -/
theorem decoderResult_of_forall_params (i : Instr) (op : Params → State → State) (fields : Params → List Field)
    (good : Params → State → State → Prop) (hexec : ∀ s, exec i s = .next (op Config.params s))
    (hgood : ∀ (P : Params) (s : State), s.status.flt = false → FieldsInFrame s (fields P) → good P s (op P s)) :
    DecoderResult i op fields good :=
  ⟨hgood, fun s hflt hfields => ⟨_, hexec s, hgood _ s hflt hfields⟩⟩

/-- A zeroing decoder whose fields are in range fills REC afresh (R120). -/
theorem decodeRecord_of_inRange (i : Instr) (kind : Nat) (fields : List Field) (body : List RecWrite) (s : State)
    (h : FieldsInFrame s fields) :
    decodeRecord i kind (allInRange s fields) body s =
      writeRecord (putFields (zeroBytes 1024) (recordHeader kind s.status ++ body)) s := by
  rw [(allInRange_iff s fields).2 h]
  rfl

/-- DECRPORT answers the state of `decrportWith` (R128). -/
theorem exec_decrport (s : State) : exec .decrport s = .next (decrportWith Config.params s) := rfl

/-- All field writes of DECRPORT: the header and the body (R120, R128). -/
def raidPortWrites (P : Params) (s : State) : List RecWrite :=
  recordHeader 2 s.status ++ raidPortBody P.raidPort P.member P.enums s

theorem decrportWith_of_inRange (P : Params) (s : State) (h : FieldsInFrame s (raidPortFields P.raidPort P.member)) :
    decrportWith P s = writeRecord (putFields (zeroBytes 1024) (raidPortWrites P s)) s :=
  decodeRecord_of_inRange _ _ _ _ _ h

/-- The extents of one member record at REC offset `m` (R29). -/
def memberExtents (m : Nat) : List (Nat × Nat) :=
  [(m + 0x00, 1), (m + 0x01, 1), (m + 0x02, 1), (m + 0x04, 4), (m + 0x08, 4), (m + 0x10, 8)]

/-- The extents of a RaidPortInfo record in the order DECRPORT writes them (R26, R28, R29). -/
def raidPortExtents : List (Nat × Nat) :=
  [ (0x000, 4), (0x004, 4), (0x010, 40), (0x038, 20), (0x04C, 1), (0x04D, 2), (0x058, 8), (0x04F, 2), (0x051, 1),
    (0x052, 2), (0x054, 1), (0x060, 4), (0x064, 4), (0x068, 4), (0x06C, 4), (0x070, 8) ]
    ++ (List.range 5).flatMap fun i => memberExtents (0x080 + 0x20 * i)

theorem memberBody_extents (M : MemberLayout) (s : State) (m b : Nat) :
    (memberBody M s m b).map writeExtent = memberExtents m := rfl

/-- Only the two texts and the password depend on the frame's end; every other extent is its field's width. -/
theorem raidPortWrites_extents (P : Params) (s : State) (h : FieldsInFrame s (raidPortFields P.raidPort P.member)) :
    (raidPortWrites P s).map writeExtent = raidPortExtents := by
  have model : (strField s P.raidPort.model 40).length = 40 :=
    strField_length _ _ _ (h (.str P.raidPort.model 40) (by simp [raidPortFields]))
  have serial : (strField s P.raidPort.serial 20).length = 20 :=
    strField_length _ _ _ (h (.str P.raidPort.serial 20) (by simp [raidPortFields]))
  have password : (rawField s P.raidPort.password 8).length = 8 :=
    rawField_length _ _ _ (h (.raw P.raidPort.password 8) (by simp [raidPortFields]))
  simp [raidPortWrites, recordHeader, raidPortBody, raidPortExtents, putNat, putEnum, putCapacity, List.map_flatMap,
    memberBody_extents, model, serial, password]

/-- No two field writes of DECRPORT touch a common byte. -/
theorem raidPortWrites_apart (P : Params) (s : State) (h : FieldsInFrame s (raidPortFields P.raidPort P.member)) :
    (raidPortWrites P s).Pairwise RecWritesApart :=
  pairwise_of_extents _ _ (raidPortWrites_extents P s h) (by decide)

/-- The two bytes of the RAID level: the raw byte, and right after it its code (R28, R128). -/
theorem decrportWith_level (P : Params) (s : State) (h : FieldsInFrame s (raidPortFields P.raidPort P.member)) :
    byteAt (decrportWith P s).record 0x04D = byteField s P.raidPort.level ∧
    byteAt (decrportWith P s).record 0x04E = P.enums.raidLevel (byteField s P.raidPort.level) := by
  have written : putEnum 0x04D P.enums.raidLevel (byteField s P.raidPort.level) ∈ raidPortWrites P s := by
    simp [raidPortWrites, raidPortBody]
  have byte := byteAt_fresh_of_mem _ (raidPortWrites_apart P s h) _ _ written (by simp)
  rw [decrportWith_of_inRange P s h, writeRecord_record]
  exact ⟨byte 0 (by simp), byte 1 (by simp)⟩

/-- Settles O48: both bytes of the level are what R128 writes, and R5 gives the code of 0x09 as 0xFF. -/
theorem unknownRaidLevelIsMarked : Obligations.UnknownRaidLevelIsMarked := by
  unfold Obligations.UnknownRaidLevelIsMarked
  refine decoderResult_of_forall_params _ _ _ _ exec_decrport fun P s hflt hfields hlevel => ?_
  obtain ⟨raw, code⟩ := decrportWith_level P s hfields
  have level : byteField s P.raidPort.level = 0x09 := hlevel
  refine ⟨?_, ?_, ?_⟩
  · rw [decrportWith_of_inRange P s hfields, writeRecord_status, hflt]
  · rw [raw, level]
  · rw [code, level, P.enums.raidLevel_unknown]

end Sys2Proof.Machine

/-! PROOF. What an operation and a step can do, said once: `OpEffect`, `WriteEffect` and `step_preserves`. The whole-machine
statements are case splits over them. -/

namespace Sys2Proof.Machine

/-! ## The zeroing decoders as one family -/

/-- What sets one zeroing decoder apart: its kind, its range check and its body (R120). -/
structure DecoderPlan where
  kind : Nat
  fits : Bool
  body : List RecWrite

/-- The plan of each zeroing decoder; no other operation has one. -/
def decoderPlan (P : Params) (s : State) : Instr → Option DecoderPlan
  | .decchip => some ⟨1, allInRange s (chipFields P.chip), chipBody P.chip s⟩
  | .decrport => some ⟨2, allInRange s (raidPortFields P.raidPort P.member), raidPortBody P.raidPort P.member P.enums s⟩
  | .decsata => some ⟨3, allInRange s (sataFields P.item), sataBody P.item P.enums s⟩
  | .decsport => some ⟨4, allInRange s (sataPortFields P.sataPort), sataPortBody P.sataPort P.enums s⟩
  | .decsmartv => some ⟨5, smartInRange s, smartBody P.smart P.enums s⟩
  | _ => none

/-- REC zeroed and filled by a list of field writes (R120). -/
abbrev filled (ws : List RecWrite) : Vector Byte 1024 := putFields (zeroBytes 1024) ws

/-- The record a plan fills REC with, from the flags STATUS holds (R120). -/
def DecoderPlan.freshRecord (p : DecoderPlan) (st : Status) : Vector Byte 1024 :=
  filled (recordHeader p.kind st ++ p.body)

/-- A zeroing decoder is the common procedure at its plan, and `exec` runs it at the machine's own parameters. -/
theorem exists_plan_of_mem_zeroingDecoders (i : Instr) (op : Params → State → State)
    (h : (i, op) ∈ zeroingDecoders) :
    (∀ s, exec i s = .next (op Config.params s)) ∧
    ∀ P s, ∃ p, decoderPlan P s i = some p ∧ op P s = decodeRecord i p.kind p.fits p.body s := by
  simp only [zeroingDecoders, List.mem_cons, Prod.mk.injEq, List.not_mem_nil, or_false] at h
  obtain ⟨rfl, rfl⟩ | ⟨rfl, rfl⟩ | ⟨rfl, rfl⟩ | ⟨rfl, rfl⟩ | ⟨rfl, rfl⟩ := h <;>
    exact ⟨fun _ => rfl, fun _ _ => ⟨_, rfl, rfl⟩⟩

/-! ## Operations -/

/-- What operation `i` can make of a state: one constructor per effect, each with the operations that have it. -/
inductive OpEffect (i : Instr) (s : State) : State → Prop where
  | none : OpEffect i s s
  | checksum (c : Word) : OpEffect i s (writeCkres c s)
  | stamp (f : Frame) (c : Word) (hi : i = .ckstamp) : OpEffect i s (writeFb f (writeCkres c s))
  | verify (c : Word) :
      OpEffect i s (writeStatus (checksumVerdict (decide (frameChecksum Config.params s.fb = wordAt s.fb 127)) s.status)
        (writeCkres c s))
  | codec (f : Frame) (hi : i = .scr ∨ i = .dscr) : OpEffect i s (writeFb f s)
  | build (hi : i = .fbuild) (hseqx : s.status.seqx = false) (hplen : s.plen.toNat ≤ 504) :
      OpEffect i s (buildWith Config.params s)
  | number (v : BitVec 64) : OpEffect i s (writeXr v s)
  | text (bs : List Byte) (hi : ∃ off len, i = .getstr off len ∨ i = .getraw off len) (hlen : bs.length ≤ 64) :
      OpEffect i s (writeSr bs s)
  | sequence :
      OpEffect i s (writeStatus (sequenceVerdict (s.status.lsv && decide (wordAt s.fb 1 = s.lastSeq)) s.status) s)
  | decoded (p : DecoderPlan) (hp : decoderPlan Config.params s i = some p) (hfits : p.fits = true) :
      OpEffect i s (writeRecord (p.freshRecord s.status) s)
  | merged (hi : i = .decsmartt) (hkind : recordKind s.record = 5) : OpEffect i s (writeRecord (mergedRecord s) s)
  | fault (code : FaultCode) : OpEffect i s (takeFault code (encode i) s)

theorem getNumber_effect (i : Instr) (off n : Nat) (result : Nat → BitVec 64) (s : State) :
    OpEffect i s (getNumber i off n result s) := by
  obtain ⟨_, e⟩ | ⟨_, e⟩ := getNumber_cases i off n result s _ rfl <;> rw [e]
  · exact .number _
  · exact .fault _

theorem getBytes_effect (i : Instr) (off len : Nat) (legal : Bool) (bytes : List Byte) (s : State)
    (hi : ∃ off len, i = .getstr off len ∨ i = .getraw off len)
    (hlen : legal = true → inRange s off len = true → bytes.length ≤ 64) :
    OpEffect i s (getBytes i off len legal bytes s) := by
  obtain ⟨_, e⟩ | ⟨hl, hr, e⟩ | ⟨_, _, e⟩ := getBytes_cases i off len legal bytes s _ rfl <;> rw [e]
  · exact .fault _
  · exact .text _ hi (hlen hl hr)
  · exact .fault _

theorem fbuildWith_effect (s : State) : OpEffect .fbuild s (fbuildWith Config.params s) := by
  obtain ⟨_, e⟩ | ⟨_, _, e⟩ | ⟨hx, hp, e⟩ := fbuildWith_cases Config.params s _ rfl <;> rw [e]
  · exact .fault _
  · exact .fault _
  · exact .build rfl hx hp

theorem decodeRecord_effect (i : Instr) (s : State) (p : DecoderPlan) (hp : decoderPlan Config.params s i = some p) :
    OpEffect i s (decodeRecord i p.kind p.fits p.body s) := by
  obtain ⟨hfits, e⟩ | ⟨_, e⟩ := decodeRecord_cases i p.kind p.fits p.body s _ rfl <;> rw [e]
  · exact .decoded p hp hfits
  · exact .fault _

/-- Every operation has one of the effects. -/
theorem exec_effect (i : Instr) (s t : State) (h : exec i s = .next t) : OpEffect i s t := by
  cases i with
  | decsmartt =>
    obtain ⟨_, rfl⟩ | ⟨hk, _, rfl⟩ | ⟨_, _, rfl⟩ := execDecsmartt_cases s t h
    · exact .fault _
    · exact .merged rfl hk
    · exact .fault _
  | nop => cases h; exact .none
  | cksum => cases h; exact .checksum _
  | ckstamp => cases h; exact .stamp _ _ rfl
  | ckvfy => cases h; exact .verify _
  | scr => cases h; exact .codec _ (.inl rfl)
  | dscr => cases h; exact .codec _ (.inr rfl)
  | fbuild => cases h; exact fbuildWith_effect s
  | seqchk => cases h; exact .sequence
  | getu8 off => cases h; exact getNumber_effect ..
  | getu16 off => cases h; exact getNumber_effect ..
  | getu32 off => cases h; exact getNumber_effect ..
  | getu48 off => cases h; exact getNumber_effect ..
  | getcap off => cases h; exact getNumber_effect ..
  | getstr off len =>
    cases h
    refine getBytes_effect _ _ _ _ _ _ ⟨off, len, .inl rfl⟩ fun hl hr => ?_
    obtain ⟨_, h64, _⟩ := of_decide_eq_true hl
    rwa [strField_length s off len ((inRange_iff s off len).1 hr)]
  | getraw off len =>
    cases h
    refine getBytes_effect _ _ _ _ _ _ ⟨off, len, .inr rfl⟩ fun hl hr => ?_
    obtain ⟨_, h64⟩ := of_decide_eq_true hl
    rwa [rawField_length s off len ((inRange_iff s off len).1 hr)]
  | decchip => cases h; exact decodeRecord_effect .decchip s _ rfl
  | decrport => cases h; exact decodeRecord_effect .decrport s _ rfl
  | decsata => cases h; exact decodeRecord_effect .decsata s _ rfl
  | decsport => cases h; exact decodeRecord_effect .decsport s _ rfl
  | decsmartv => cases h; exact decodeRecord_effect .decsmartv s _ rfl

/-! ## Host writes and steps -/

/-- What a host write to an area other than CMD can make of a state (R25, R45). -/
inductive WriteEffect (s : State) : State → Prop where
  | frame (f : Frame) : WriteEffect s (writeFb f s)
  | payload (b : Vector Byte 504) : WriteEffect s { s with pb := b }
  | setup (magic plen roff : Word) : WriteEffect s { s with magic := magic, plen := plen, roff := roff }

theorem areaWrite_effect (area : Area) (rel n : Nat) (v : Word) (s : State) :
    WriteEffect s (areaWrite area rel n v s) := by
  cases area with
  | fb => exact .frame _
  | pb => exact .payload _
  | magic => exact .setup v s.plen s.roff
  | plen => exact .setup s.magic v s.roff
  | roff => exact .setup s.magic s.plen v
  | _ => exact .setup s.magic s.plen s.roff

/-- An invariant of the step, from one clause per thing a step can do: the host's side of the bus does not matter, reset
establishes it, and host writes, E_OPC and operations of a running block keep it. -/
theorem step_preserves (I : State → Prop) (hbus : ∀ s p r, I s → I { s with pending := p, response := r })
    (hreset : ∀ n p, I (State.afterReset n p)) (hwrite : ∀ s t, WriteEffect s t → I s → I t)
    (hopc : ∀ s c, s.status.flt = false → I s → I (takeFault .eOpc c s))
    (hop : ∀ i s t, s.status.flt = false → OpEffect i s t → I s → I t) (s t : State) (hs : I s)
    (h : step s = .next t) : I t := by
  obtain ⟨p, r, rfl⟩ | ⟨rest, _, rfl⟩ | ⟨rest, c, e, _, hflt, _, rfl⟩ | ⟨rest, c, i, _, hflt, _, hi⟩ |
    ⟨rest, area, rel, n, v, _, rfl⟩ := step_next_cases s t h
  · exact hbus s p r hs
  · exact hreset _ _
  · exact hopc _ c hflt (hbus s rest .done hs)
  · exact hop i { s with pending := rest, response := .done } t hflt (exec_effect i _ t hi) (hbus s rest .done hs)
  · exact hbus _ _ .done
      (hwrite _ _ (areaWrite_effect area rel n v { s with pending := rest }) (hbus s rest s.response hs))

end Sys2Proof.Machine

/-! PROOF. The invariants of R37 but the record's, and what moves the counter, FB's flags and the byte arrays: one case
split over the effects each. -/

namespace Sys2Proof.Machine

/-! ## FBUILD's build, field by field -/

@[simp] theorem buildWith_status (P : Params) (s : State) :
    (buildWith P s).status = clearVerification
      { s.status with lsv := true, seqx := s.status.seqx || decide (s.seq = 0xFFFFFFFF) } := rfl
@[simp] theorem buildWith_seq (P : Params) (s : State) :
    (buildWith P s).seq = if s.seq = 0xFFFFFFFF then 0 else s.seq + 1 := by
  simp [buildWith]
@[simp] theorem buildWith_lastSeq (P : Params) (s : State) : (buildWith P s).lastSeq = s.seq := rfl

/-- FBUILD that no test stops builds (R100). -/
theorem exec_fbuild_of_builds (s : State) (hseqx : s.status.seqx = false) (hplen : s.plen.toNat ≤ 504) :
    exec .fbuild s = .next (buildWith Config.params s) := by
  show Host.Outcome.next (fbuildWith Config.params s) = _
  simp [fbuildWith, hseqx, Nat.not_lt.2 hplen]

/-! ## The counter (R18, R37 (e), (f), (i)) -/

theorem sequenceShape_afterReset (n : Nat) (p : List HostAccess) : SequenceShape (State.afterReset n p) :=
  ⟨fun _ => ⟨rfl, rfl⟩, fun h => by simp at h, fun h => by simp at h⟩

/-- The number the next FBUILD uses is at least 1: 1 if none was built, at least 2 otherwise. -/
theorem SequenceShape.one_le_seq {s : State} (hs : SequenceShape s) (hseqx : s.status.seqx = false) :
    1 ≤ s.seq.toNat := by
  cases hlsv : s.status.lsv with
  | false =>
    obtain ⟨hseq, _⟩ := hs.fresh hlsv
    rw [hseq]
    decide
  | true =>
    obtain ⟨_, h2⟩ := hs.next hlsv hseqx
    omega

/-- A number below the last one has a successor. -/
theorem two_le_succ_toNat (w : Word) (h1 : 1 ≤ w.toNat) (hne : w ≠ 0xFFFFFFFF) : 2 ≤ (w + 1).toNat := by
  bv_omega

theorem sequenceShape_buildWith (P : Params) (s : State) (hs : SequenceShape s) (hseqx : s.status.seqx = false) :
    SequenceShape (buildWith P s) := by
  have hseqx' : (buildWith P s).status.seqx = decide (s.seq = 0xFFFFFFFF) := by
    rw [buildWith_status, clearVerification_seqx, hseqx, Bool.false_or]
  refine ⟨fun h => by simp at h, fun h => ?_, fun _ h => ?_⟩
  · rw [hseqx', decide_eq_true_eq] at h
    exact ⟨by rw [buildWith_seq, if_pos h], rfl⟩
  · rw [hseqx', decide_eq_false_iff_not] at h
    rw [buildWith_seq, if_neg h]
    exact ⟨rfl, two_le_succ_toNat s.seq (hs.one_le_seq hseqx) h⟩

/-- Settles O58: only a build moves the counter, and it keeps the relation. -/
theorem stepKeepsSequenceShape : Obligations.StepKeepsSequenceShape := by
  unfold Obligations.StepKeepsSequenceShape
  refine step_preserves _ ?bus sequenceShape_afterReset ?write ?opc ?op
  case bus => exact fun s p r hs => ⟨hs.fresh, hs.exhausted, hs.next⟩
  case write =>
    intro s t h hs
    cases h <;> exact ⟨hs.fresh, hs.exhausted, hs.next⟩
  case opc => exact fun s c _ hs => ⟨hs.fresh, hs.exhausted, hs.next⟩
  case op =>
    intro i s t _ h hs
    cases h with
    | build _ hseqx _ => exact sequenceShape_buildWith _ s hs hseqx
    | _ => exact ⟨hs.fresh, hs.exhausted, hs.next⟩

/-- Settles O30: the build puts SEQ into LASTSEQ, and by the invariant SEQ is the old LASTSEQ plus 1 without a wrap. -/
theorem sequenceNumbersIncrease : Obligations.SequenceNumbersIncrease := by
  unfold Obligations.SequenceNumbersIncrease
  intro s hs _ hseqx hplen
  refine ⟨_, exec_fbuild_of_builds s hseqx hplen, rfl, ?_, ?_⟩ <;> rw [buildWith_lastSeq]
  · exact hs.one_le_seq hseqx
  · intro hlsv
    obtain ⟨hnext, h2⟩ := hs.next hlsv hseqx
    bv_omega

/-- The counter's state: SEQ, LASTSEQ, LSV and SEQX are the same in both states. -/
def CounterKept (s t : State) : Prop :=
  t.seq = s.seq ∧ t.lastSeq = s.lastSeq ∧ t.status.lsv = s.status.lsv ∧ t.status.seqx = s.status.seqx

theorem OpEffect.counterKept_or {i : Instr} {s t : State} (h : OpEffect i s t) : CounterKept s t ∨ i = .fbuild := by
  cases h with
  | build hi _ _ => exact .inr hi
  | _ => exact .inl ⟨rfl, rfl, rfl, rfl⟩

theorem WriteEffect.counterKept {s t : State} (h : WriteEffect s t) : CounterKept s t := by
  cases h <;> exact ⟨rfl, rfl, rfl, rfl⟩

/-- A word encodes the operation it decodes to (R61, R68). -/
theorem encode_of_decode (c : Word) (i : Instr) (h : decode c = .ok i) : encode i = c := by
  cases hrow : opcodeRow (opcField c) with
  | none =>
    rw [decode_none c hrow] at h
    cases h
  | some row =>
    obtain ⟨_, hencode⟩ := opcodeRow_encode _ _ hrow
    by_cases hz : zeroField c = 0
    · have hfields := commandWord_fields c hz
      cases row with
      | n j =>
        rw [decode_n c j hrow hz] at h
        split at h
        · cases h
        · rename_i hzero
          obtain ⟨hlen, hoff⟩ : lenField c = 0 ∧ offField c = 0 := by omega
          cases h
          rw [hlen, hoff] at hfields
          exact hencode.2.trans hfields
      | o mk =>
        rw [decode_o c mk hrow hz] at h
        split at h
        · cases h
        · rename_i hlen
          cases h
          rw [Decidable.not_not.1 hlen] at hfields
          exact (hencode _).2.trans hfields
      | s mk =>
        rw [decode_s c mk hrow hz] at h
        cases h
        exact (hencode _ _).2.trans hfields
    · rw [decode_zero c row hrow hz] at h
      cases h

/-- Settles O52: of all a step can do, only reset and FBUILD's build touch the counter, and FBUILD is one word. -/
theorem onlyFbuildMovesTheCounter : Obligations.OnlyFbuildMovesTheCounter := by
  unfold Obligations.OnlyFbuildMovesTheCounter
  intro s t h
  obtain ⟨p, r, rfl⟩ | ⟨rest, hp, _⟩ | ⟨rest, c, e, _, _, _, rfl⟩ | ⟨rest, c, i, hp, hflt, hi, h⟩ |
    ⟨rest, area, rel, n, v, _, rfl⟩ := step_next_cases s t h
  · exact .inl ⟨rfl, rfl, rfl, rfl⟩
  · exact .inr (.inl ⟨rest, hp⟩)
  · exact .inl ⟨rfl, rfl, rfl, rfl⟩
  · obtain hkept | rfl := (exec_effect i _ t h).counterKept_or
    · exact .inl hkept
    · have hc : c = 0x20000000 := (encode_of_decode c _ hi).symm
      exact .inr (.inr ⟨hflt, rest, hc ▸ hp⟩)
  · exact .inl (areaWrite_effect area rel n v { s with pending := rest }).counterKept

/-! ## The verdicts (R25, R37 (a), (b), (c)) -/

/-- The verdict flags are exclusive and speak of the frame FB holds. -/
def VerdictsHold (s : State) : Prop := VerdictsExclusive s ∧ VerdictsSound s

/-- With no positive verdict there is nothing to hold. -/
theorem verdictsHold_of_unset (s : State) (hck : s.status.ckok = false) (hseq : s.status.seqok = false) :
    VerdictsHold s :=
  ⟨⟨by simp [hck], by simp [hseq]⟩, ⟨by simp [hck], by simp [hseq]⟩⟩

/-- Settles O56: CKVFY and SEQCHK write the verdict they have just tested; every write to FB clears all four flags. -/
theorem stepKeepsVerdicts : Obligations.StepKeepsVerdicts := by
  unfold Obligations.StepKeepsVerdicts
  suffices h : ∀ s t, VerdictsHold s → step s = .next t → VerdictsHold t from
    fun s t hexclusive hsound => h s t ⟨hexclusive, hsound⟩
  refine step_preserves VerdictsHold ?bus ?reset ?write ?opc ?op
  case bus => exact fun s p r ⟨⟨hck, hseq⟩, ⟨hsum, hword⟩⟩ => ⟨⟨hck, hseq⟩, ⟨hsum, hword⟩⟩
  case reset => exact fun n p => verdictsHold_of_unset _ rfl rfl
  case write =>
    intro s t h ⟨⟨hck, hseq⟩, ⟨hsum, hword⟩⟩
    cases h with
    | frame f => exact verdictsHold_of_unset _ rfl rfl
    | _ => exact ⟨⟨hck, hseq⟩, ⟨hsum, hword⟩⟩
  case opc => exact fun s c _ ⟨⟨hck, hseq⟩, ⟨hsum, hword⟩⟩ => ⟨⟨hck, hseq⟩, ⟨hsum, hword⟩⟩
  case op =>
    intro i s t _ h ⟨⟨hck, hseq⟩, ⟨hsum, hword⟩⟩
    cases h with
    | stamp | codec | build => exact verdictsHold_of_unset _ rfl rfl
    | verify c => exact ⟨⟨by simp, hseq⟩, ⟨of_decide_eq_true, hword⟩⟩
    | sequence => exact ⟨⟨hck, by simp⟩, ⟨hsum, by simp⟩⟩
    | _ => exact ⟨⟨hck, hseq⟩, ⟨hsum, hword⟩⟩

/-- The four verification flags are 0. -/
def VerificationCleared (st : Status) : Prop :=
  st.ckok = false ∧ st.ckbad = false ∧ st.seqok = false ∧ st.seqbad = false

theorem WriteEffect.fb_kept_or_cleared {s t : State} (h : WriteEffect s t) :
    t.fb = s.fb ∨ VerificationCleared t.status := by
  cases h with
  | frame => exact .inr ⟨rfl, rfl, rfl, rfl⟩
  | _ => exact .inl rfl

theorem OpEffect.fb_kept_or_cleared {i : Instr} {s t : State} (h : OpEffect i s t) :
    t.fb = s.fb ∨ VerificationCleared t.status := by
  cases h with
  | stamp | codec | build => exact .inr ⟨rfl, rfl, rfl, rfl⟩
  | _ => exact .inl rfl

/-- Settles O54: whatever changes FB goes through `writeFb`, or is reset. -/
theorem frameChangeClearsVerdicts : Obligations.FrameChangeClearsVerdicts := by
  unfold Obligations.FrameChangeClearsVerdicts
  intro s t h hfb
  obtain ⟨p, r, rfl⟩ | ⟨rest, _, rfl⟩ | ⟨rest, c, e, _, _, _, rfl⟩ | ⟨rest, c, i, _, _, _, h⟩ |
    ⟨rest, area, rel, n, v, _, rfl⟩ := step_next_cases s t h
  · exact absurd rfl hfb
  · exact ⟨rfl, rfl, rfl, rfl⟩
  · exact absurd rfl hfb
  · exact (exec_effect i _ t h).fb_kept_or_cleared.resolve_left hfb
  · exact (areaWrite_effect area rel n v { s with pending := rest }).fb_kept_or_cleared.resolve_left hfb

/-! ## SR's tail (R24, R37 (d)) -/

theorem stringTailZero_afterReset (n : Nat) (p : List HostAccess) : StringTailZero (State.afterReset n p) :=
  ⟨by simp, fun i _ _ => byteAt_zeroBytes 64 i⟩

theorem stringTailZero_writeSr (bs : List Byte) (s : State) (h : bs.length ≤ 64) : StringTailZero (writeSr bs s) := by
  have hlen : (writeSr bs s).slen.toNat = bs.length := by
    rw [writeSr_slen, BitVec.toNat_ofNat, Nat.mod_eq_of_lt (by omega)]
  refine ⟨by omega, fun i hi _ => ?_⟩
  rw [writeSr_sr, byteAt_putBytes_of_out _ _ _ _ (by omega), byteAt_zeroBytes]

/-- Settles O57: SR and SLEN move together, by `writeSr` or reset. -/
theorem stepKeepsStringTail : Obligations.StepKeepsStringTail := by
  unfold Obligations.StepKeepsStringTail
  refine step_preserves _ ?bus stringTailZero_afterReset ?write ?opc ?op
  case bus => exact fun s p r hs => ⟨hs.length, hs.tail⟩
  case write =>
    intro s t h hs
    cases h <;> exact ⟨hs.length, hs.tail⟩
  case opc => exact fun s c _ hs => ⟨hs.length, hs.tail⟩
  case op =>
    intro i s t _ h hs
    cases h with
    | text bs _ hlen => exact stringTailZero_writeSr bs s hlen
    | _ => exact ⟨hs.length, hs.tail⟩

/-! ## The fault registers (R37 (g)) -/

theorem faultShape_afterReset (n : Nat) (p : List HostAccess) : FaultShape (State.afterReset n p) :=
  ⟨fun _ => ⟨rfl, rfl⟩, fun h => by simp at h⟩

theorem faultNumber_bounds (code : FaultCode) : 1 ≤ (faultNumber code).toNat ∧ (faultNumber code).toNat ≤ 6 := by
  cases code <;> decide

theorem faultShape_takeFault (code : FaultCode) (c : Word) (s : State) : FaultShape (takeFault code c s) :=
  ⟨fun h => by simp at h, fun _ => faultNumber_bounds code⟩

/-- Settles O59: only fault entry and reset write FLT, FAULT or FAULTCMD. -/
theorem stepKeepsFaultShape : Obligations.StepKeepsFaultShape := by
  unfold Obligations.StepKeepsFaultShape
  refine step_preserves _ ?bus faultShape_afterReset ?write ?opc ?op
  case bus => exact fun s p r hs => ⟨hs.running, hs.frozen⟩
  case write =>
    intro s t h hs
    cases h <;> exact ⟨hs.running, hs.frozen⟩
  case opc => exact fun s c _ _ => faultShape_takeFault _ c s
  case op =>
    intro i s t _ h hs
    cases h with
    | fault code => exact faultShape_takeFault code _ s
    | _ => exact ⟨hs.running, hs.frozen⟩

/-! ## The byte arrays (R11, R12, R24, R26) -/

theorem OpEffect.fb_kept_or {i : Instr} {s t : State} (h : OpEffect i s t) :
    t.fb = s.fb ∨ i ∈ [Instr.ckstamp, .scr, .dscr, .fbuild] := by
  cases h with
  | stamp _ _ hi => exact .inr (by simp [hi])
  | codec f hi => exact .inr (by rcases hi with rfl | rfl <;> simp)
  | build hi => exact .inr (by simp [hi])
  | _ => exact .inl rfl

theorem OpEffect.pb_kept {i : Instr} {s t : State} (h : OpEffect i s t) : t.pb = s.pb := by
  cases h <;> rfl

theorem OpEffect.sr_kept_or {i : Instr} {s t : State} (h : OpEffect i s t) :
    (t.sr = s.sr ∧ t.slen = s.slen) ∨ ∃ off len, i = .getstr off len ∨ i = .getraw off len := by
  cases h with
  | text _ hi => exact .inr hi
  | _ => exact .inl ⟨rfl, rfl⟩

theorem mem_of_decoderPlan {P : Params} {s : State} {i : Instr} {p : DecoderPlan} (h : decoderPlan P s i = some p) :
    i ∈ [Instr.decchip, .decrport, .decsata, .decsport, .decsmartv] := by
  cases i with
  | decchip | decrport | decsata | decsport | decsmartv => simp
  | _ => cases h

theorem OpEffect.record_kept_or {i : Instr} {s t : State} (h : OpEffect i s t) :
    t.record = s.record ∨ i ∈ [Instr.decchip, .decrport, .decsata, .decsport, .decsmartv, .decsmartt] := by
  cases h with
  | decoded p hp => exact .inr (List.mem_append_left [Instr.decsmartt] (mem_of_decoderPlan hp))
  | merged hi => exact .inr (by simp [hi])
  | _ => exact .inl rfl

/-- Settles O53: array by array, from the effects. -/
theorem operationsWriteOnlyTheirArrays : Obligations.OperationsWriteOnlyTheirArrays := by
  unfold Obligations.OperationsWriteOnlyTheirArrays
  intro i s t h
  have effect := exec_effect i s t h
  refine ⟨effect.fb_kept_or.resolve_left, effect.pb_kept, fun hne => effect.sr_kept_or.resolve_left ?_,
    effect.record_kept_or.resolve_left⟩
  rintro ⟨hsr, hslen⟩
  exact hne.elim (· hsr) (· hslen)

end Sys2Proof.Machine

/-! PROOF. The host's side (R13, R41 to R47, R180): what one access makes of a step, by the area it reaches. -/

namespace Sys2Proof.Machine

/-! ## One access, one step -/

theorem areaRead_pending (s : State) (rest : List HostAccess) (area : Area) (rel n : Nat) :
    areaRead { s with pending := rest } area rel n = areaRead s area rel n := by
  cases area <;> rfl

/-- A legal read answers its area's value (R43, R45). -/
theorem step_of_legalRead {s : State} {off : Nat} {size : AccessSize} {rest : List HostAccess} {area : Area} {rel : Nat}
    (hp : s.pending = .read off size :: rest) (hlegal : legalRead off size = some (area, rel)) :
    step s = .next { s with pending := rest, response := .data (areaRead s area rel (accessBytes size)) } := by
  simp [step, nextAccess, hp, perform, hostRead, windowRead, hlegal, areaRead_pending, respond]

/-- A legal write of a running block to an area other than CMD stores its value (R45). -/
theorem step_of_legalWrite {s : State} {off : Nat} {size : AccessSize} {v : Word} {rest : List HostAccess} {area : Area}
    {rel : Nat} (hflt : s.status.flt = false) (hp : s.pending = .write off size v :: rest)
    (hlegal : legalWrite false off size = some (area, rel)) (hne : area ≠ .cmd) :
    step s = .next (respond .done (areaWrite area rel (accessBytes size) v { s with pending := rest })) := by
  simp [step, nextAccess, hp, perform, hostWrite, hflt, hlegal, hne]

/-- A 4-byte write to CMD of a running block is a command (R13, R68). -/
theorem step_of_commandWrite {s : State} {c : Word} {rest : List HostAccess} (hflt : s.status.flt = false)
    (hp : s.pending = .write 0x400 .word c :: rest) :
    step s = command c { s with pending := rest, response := .done } := by
  have hlegal : legalWrite false 0x400 .word = some (.cmd, 0) := rfl
  simp [step, nextAccess, hp, perform, hostWrite, hflt, hlegal, respond]

theorem step_of_reset {s : State} {rest : List HostAccess} (hp : s.pending = .reset :: rest) :
    step s = .next (State.afterReset (s.resetCount + 1) rest) := by
  simp [step, nextAccess, hp, perform]

theorem command_of_decode {c : Word} {i : Instr} (h : decode c = .ok i) (s : State) : command c s = exec i s := by
  simp [command, h]

/-- Settles O7: the write to CMD is legal, and the command it starts is the decoded operation's `exec`. -/
theorem stepRunsDecodedOperation : Obligations.StepRunsDecodedOperation := by
  unfold Obligations.StepRunsDecodedOperation
  refine ⟨fun s c i rest hflt hp hdecode => ?_, fun s w i hflt hw hdecode => ?_, fun s hp => ?_⟩
  · rw [step_of_commandWrite hflt hp, command_of_decode hdecode]
  · have hword : BitVec.ofNat 32 (w % 2 ^ 32) = BitVec.ofNat 32 w := by rw [Nat.mod_eq_of_lt hw]
    have hp : (s.withFetchWord 32 w).pending = .write 0x400 .word (BitVec.ofNat 32 w) :: s.pending := by
      rw [← hword]
      rfl
    exact (step_of_commandWrite (s := s.withFetchWord 32 w) hflt hp).trans (command_of_decode hdecode _)
  · simp [step, nextAccess, hp]

/-! ## Registers -/

/-- STATUS bit by bit (R14). -/
theorem statusWord_eq (st : Status) :
    statusWord st = (0 : BitVec 24) ++ BitVec.ofBool st.flt ++ (0 : BitVec 1) ++ BitVec.ofBool st.lsv
      ++ BitVec.ofBool st.seqx ++ BitVec.ofBool st.seqbad ++ BitVec.ofBool st.seqok ++ BitVec.ofBool st.ckbad
      ++ BitVec.ofBool st.ckok := by
  have all : ∀ ckok ckbad seqok seqbad seqx lsv flt : Bool,
      statusWord ⟨ckok, ckbad, seqok, seqbad, seqx, lsv, flt⟩ =
        (0 : BitVec 24) ++ BitVec.ofBool flt ++ (0 : BitVec 1) ++ BitVec.ofBool lsv ++ BitVec.ofBool seqx
          ++ BitVec.ofBool seqbad ++ BitVec.ofBool seqok ++ BitVec.ofBool ckbad ++ BitVec.ofBool ckok := by
    decide
  exact all ..

/-- CODE below 24 zeros (R15). -/
theorem faultWord_eq (code : Byte) : faultWord code = (0 : BitVec 24) ++ code := by
  apply BitVec.eq_of_toNat_eq
  have := code.isLt
  rw [toNat_append_byte, faultWord, BitVec.toNat_setWidth]
  simp
  omega

/-- Settles O12: each register's offset is its row of the map, and the row's value is the register. -/
theorem registerReads : Obligations.RegisterReads := by
  unfold Obligations.RegisterReads
  intro s off v rest hp hv
  rw [← statusWord_eq, ← faultWord_eq] at hv
  suffices h : ∃ area, legalRead off .word = some (area, 0) ∧ v = areaRead s area 0 4 by
    obtain ⟨area, hlegal, rfl⟩ := h
    exact step_of_legalRead hp hlegal
  simp only [List.mem_cons, Prod.mk.injEq, List.not_mem_nil, or_false] at hv
  obtain ⟨rfl, rfl⟩ | ⟨rfl, rfl⟩ | ⟨rfl, rfl⟩ | ⟨rfl, rfl⟩ | ⟨rfl, rfl⟩ | ⟨rfl, rfl⟩ | ⟨rfl, rfl⟩ | ⟨rfl, rfl⟩ |
    ⟨rfl, rfl⟩ | ⟨rfl, rfl⟩ | ⟨rfl, rfl⟩ | ⟨rfl, rfl⟩ := hv <;> exact ⟨_, rfl, rfl⟩

/-- Settles O15: the three writable registers are rows of the map. -/
theorem hostWritesToRegisters : Obligations.HostWritesToRegisters := by
  unfold Obligations.HostWritesToRegisters
  intro s v rest hflt
  exact ⟨fun hp => step_of_legalWrite (area := .magic) (rel := 0) hflt hp rfl (by decide),
    fun hp => step_of_legalWrite (area := .plen) (rel := 0) hflt hp rfl (by decide),
    fun hp => step_of_legalWrite (area := .roff) (rel := 0) hflt hp rfl (by decide)⟩

/-! ## FB and PB -/

theorem accessBytes_pos (size : AccessSize) : 0 < accessBytes size := by
  cases size <;> decide

theorem legalWrite_fb (off : Nat) (size : AccessSize) (halign : off % accessBytes size = 0)
    (hend : off + accessBytes size ≤ 512) : legalWrite false off size = some (.fb, off) := by
  simp [legalWrite, accessRow, halign, rowOf, windowMap, hend]

theorem legalWrite_pb (off : Nat) (size : AccessSize) (halign : off % accessBytes size = 0) (hstart : 512 ≤ off)
    (hend : off + accessBytes size ≤ 0x3F8) : legalWrite false off size = some (.pb, off - 512) := by
  have hpast : ¬off + accessBytes size ≤ 512 := by have := accessBytes_pos size; omega
  simp [legalWrite, accessRow, halign, rowOf, windowMap, hpast, hstart, hend]

/-- Byte `j` of a write's value (R43). -/
theorem byteAt_putBytes_value {n : Nat} (a : Vector Byte n) (off k j : Nat) (v : Word) (hj : j < k) (hend : off + k ≤ n) :
    byteAt (putBytes a off (bytesOfNat k v.toNat)) (off + j) = v.extractLsb' (8 * j) 8 := by
  rw [byteAt_putBytes_of_in _ _ _ _ (by simp; omega) (by omega), Nat.add_sub_cancel_left, bytesOfNat_getElem?,
    if_pos hj]
  apply BitVec.eq_of_toNat_eq
  rw [BitVec.extractLsb'_toNat, Nat.shiftRight_eq_div_pow, Nat.pow_mul]
  simp

/-- Settles O13: the write reaches FB, whose bytes are those of `putBytes`; the rest is `writeFb`'s frame. -/
theorem hostWritesToFrameBuffer : Obligations.HostWritesToFrameBuffer := by
  unfold Obligations.HostWritesToFrameBuffer
  intro s off size v rest hflt hp halign hend
  refine ⟨_, step_of_legalWrite hflt hp (legalWrite_fb off size halign hend) (by decide), ?_, ?_, rfl⟩
  · exact fun j hj => byteAt_putBytes_value s.fb off _ j v hj hend
  · intro a ha
    by_cases h : a < 512
    · rw [memByte_fb _ a h, memByte_fb s a h]
      exact congrArg some (byteAt_putBytes_of_out _ _ _ _ (by simpa using ha))
    · simp [memByte, h, areaWrite]

/-- Settles O14: the write reaches PB, and `areaWrite` changes nothing else. -/
theorem hostWritesToPayloadBuffer : Obligations.HostWritesToPayloadBuffer := by
  unfold Obligations.HostWritesToPayloadBuffer
  intro s off size v rest hflt hp halign hstart hend
  refine ⟨_, step_of_legalWrite hflt hp (legalWrite_pb off size halign hstart hend) (by decide), ?_, ?_, rfl⟩
  · exact fun j hj => byteAt_putBytes_value s.pb (off - 512) _ j v hj (by omega)
  · intro a ha
    by_cases h : 512 ≤ a ∧ a < 0x3F8
    · obtain ⟨i, rfl⟩ := Nat.exists_eq_add_of_le h.1
      rw [memByte_pb _ i (by omega), memByte_pb s i (by omega)]
      exact congrArg some (byteAt_putBytes_of_out _ _ _ _ (by simp; omega))
    · simp [memByte, h, areaWrite]

/-! ## Reset -/

/-- The table of R34, from any reset. -/
theorem afterReset_table (n : Nat) (p : List HostAccess) :
    let t := State.afterReset n p
    t.status = ⟨false, false, false, false, false, false, false⟩ ∧ t.faultCode = 0 ∧ t.faultCmd = 0 ∧ t.seq = 1 ∧
      t.plen = 0 ∧ t.roff = 0x0000000C ∧ t.slen = 0 ∧ (∀ i < 64, byteAt t.sr i = 0) ∧
      (∀ i < 1024, byteAt t.record i = 0) :=
  ⟨rfl, rfl, rfl, rfl, rfl, rfl, rfl, fun i _ => byteAt_zeroBytes 64 i, fun i _ => byteAt_zeroBytes 1024 i⟩

/-- Settles O16: a reset step and the machine's initial state are both `State.afterReset`. -/
theorem resetLeavesTableValues : Obligations.ResetLeavesTableValues := by
  unfold Obligations.ResetLeavesTableValues
  exact ⟨fun s rest hp => ⟨_, step_of_reset hp, afterReset_table _ _⟩, afterReset_table 0 []⟩

end Sys2Proof.Machine

/-! PROOF. The five zeroing decoders (R27 to R32, R120): field writes that stand apart, and how each kind of field reads
back from the record they fill. -/

namespace Sys2Proof.Machine

/-! ## Field writes that stand apart -/

/-- A list of field writes inside REC of which no two touch a common byte. -/
structure WritesFit (ws : List RecWrite) : Prop where
  apart : ws.Pairwise RecWritesApart
  inside : ∀ w ∈ ws, w.1 + w.2.length ≤ 1024

/-- `WritesFit` is a question about extents: those of a layout in range are constants. -/
theorem writesFit_of_extents {ws : List RecWrite} {es : List (Nat × Nat)} (h : ws.map writeExtent = es)
    (hapart : es.Pairwise ExtentsApart) (hinside : ∀ e ∈ es, e.1 + e.2 ≤ 1024) : WritesFit ws where
  apart := pairwise_of_extents ws es h hapart
  inside := fun _ hw => hinside _ (h ▸ List.mem_map_of_mem hw)

section
variable {ws : List RecWrite} (fit : WritesFit ws)
include fit

theorem WritesFit.byteAt_add {d : Nat} {bs : List Byte} (hw : (d, bs) ∈ ws) (j : Nat) (hj : j < bs.length) :
    byteAt (filled ws) (d + j) = bs[j] :=
  byteAt_fresh_of_mem ws fit.apart d bs hw (fit.inside _ hw) j hj

/-- A byte field. -/
theorem WritesFit.byte {d : Nat} {b : Byte} (hw : (d, [b]) ∈ ws) : byteAt (filled ws) d = b :=
  fit.byteAt_add hw 0 (by simp)

/-- A byte of the slice. -/
theorem WritesFit.sliceByte {d o : Nat} {s : State} (hw : (d, [byteField s o]) ∈ ws) :
    byteAt (filled ws) d = byteAt s.fb (fieldAddr s o) :=
  fit.byte hw

/-- A flag: 1 if the slice's byte has a bit of the mask set (R122). -/
theorem WritesFit.flag {d o : Nat} {m : Byte} {s : State} (hw : (d, [flagField s o m]) ∈ ws) :
    byteAt (filled ws) d = if byteAt s.fb (fieldAddr s o) &&& m ≠ 0 then 1 else 0 :=
  fit.byte hw

/-- An enumeration: the raw byte, and right after it its code (R122). -/
theorem WritesFit.enum {d o : Nat} {table : Byte → Byte} {s : State} (hw : putEnum d table (byteField s o) ∈ ws) :
    byteAt (filled ws) d = byteAt s.fb (fieldAddr s o) ∧
    byteAt (filled ws) (d + 1) = table (byteAt s.fb (fieldAddr s o)) :=
  ⟨fit.byteAt_add hw 0 (by simp), fit.byteAt_add hw 1 (by simp)⟩

/-- A number that fits its field. -/
theorem WritesFit.nat {d k v : Nat} (hw : putNat d k v ∈ ws) (hv : v < 256 ^ k) : natAt (filled ws) d k = v :=
  natAt_fresh_of_mem ws fit.apart d k v hw (by simpa [putNat] using fit.inside _ hw) hv

omit fit in
/-- A value of the slice fits a field at least as wide. -/
theorem natField_lt_of_le (s : State) (o : Nat) {n k : Nat} (hn : n ≤ k) : natField s o n < 256 ^ k :=
  Nat.lt_of_lt_of_le (natField_lt s o n) (Nat.pow_le_pow_right (by decide) hn)

/-- A number of the slice, whose width the field has at least (R49). -/
theorem WritesFit.number {d k o n : Nat} {s : State} (hw : putNat d k (natField s o n) ∈ ws) (hn : n ≤ k) :
    natAt (filled ws) d k = natAt s.fb (fieldAddr s o) n :=
  fit.nat hw (natField_lt_of_le s o hn)

/-- A capacity: its units, and the exact byte count (R122). -/
theorem WritesFit.capacity {d d' o : Nat} {s : State} (hw : putCapacity d d' (natField s o 4) ⊆ ws) :
    natAt (filled ws) d 4 = natAt s.fb (fieldAddr s o) 4 ∧
    natAt (filled ws) d' 8 = natAt s.fb (fieldAddr s o) 4 * 33554432 := by
  have units : natField s o 4 < 2 ^ 32 := natField_lt s o 4
  have bytes := capacityBytes_toNat _ units
  refine ⟨fit.number (hw (by simp [putCapacity])) (by decide), ?_⟩
  rw [fit.nat (v := (capacityBytes (natField s o 4)).toNat) (hw (by simp [putCapacity])) (by omega), bytes]
  rfl

/-- A text in frame order (R49 (d)). -/
theorem WritesFit.copied {d o n : Nat} {s : State} (hw : (d, rawField s o n) ∈ ws)
    (hr : s.roff.toNat + o + n ≤ 512) : CopiedText (filled ws) d s.fb (fieldAddr s o) n := by
  intro j hj
  have hlen := rawField_length s o n hr
  rw [fit.byteAt_add hw j (by omega), ← rawField_getD s o n j hj, List.getElem?_eq_getElem (by omega), Option.getD_some]

/-- A text swapped in pairs (R49 (c)). -/
theorem WritesFit.swapped {d o n : Nat} {s : State} (hw : (d, strField s o n) ∈ ws)
    (hr : s.roff.toNat + o + n ≤ 512) : SwappedText (filled ws) d s.fb (fieldAddr s o) n := by
  intro j hj
  have hlen := strField_length s o n hr
  obtain ⟨heven, hodd⟩ := strField_getD s o n j hr hj
  rw [Nat.add_assoc d, fit.byteAt_add hw (2 * j) (by omega), fit.byteAt_add hw (2 * j + 1) (by omega), ← heven, ← hodd,
    List.getElem?_eq_getElem (by omega), List.getElem?_eq_getElem (by omega), Option.getD_some, Option.getD_some]
  exact ⟨rfl, rfl⟩

end

/-! ## Fresh records -/

/-- Every extent lies in one that a kind's rule names (R26 to R32). -/
abbrev ExtentsNamed (kind : Nat) (es : List (Nat × Nat)) : Prop :=
  ∀ e ∈ es, ∃ g ∈ recordExtents kind, g.1 ≤ e.1 ∧ e.1 + e.2 ≤ g.1 + g.2

/-- A record filled inside the named extents is zero elsewhere (R33 (a)). -/
theorem byteAt_filled_of_unnamed {ws : List RecWrite} {kind : Nat} (hnamed : ExtentsNamed kind (ws.map writeExtent))
    (off : Nat) (h : recordNames kind off = false) : byteAt (filled ws) off = 0 := by
  refine byteAt_fresh_of_out ws _ rfl off fun e he => ?_
  obtain ⟨g, hg, hstart, hend⟩ := hnamed e he
  have hout := List.any_eq_false.1 h g hg
  rw [decide_eq_true_eq] at hout
  omega

theorem flags_lt_four (st : Status) : st.ckok.toNat + 2 * st.seqok.toNat < 4 := by
  cases st.ckok <;> cases st.seqok <;> decide

/-- A zeroing decoder's record is fresh: its header, and zeros where its kind's rule names nothing (R120). -/
theorem freshRecord_filled {kind : Nat} {st : Status} {body : List RecWrite} (hkind : kind ≤ 5)
    (fit : WritesFit (recordHeader kind st ++ body))
    (hnamed : ExtentsNamed kind ((recordHeader kind st ++ body).map writeExtent)) :
    FreshRecord (filled (recordHeader kind st ++ body)) kind st := by
  have hflags := flags_lt_four st
  exact ⟨fit.nat (by simp [recordHeader]) (by omega), fit.nat (by simp [recordHeader]) (by omega),
    fun off _ => byteAt_filled_of_unnamed hnamed off⟩

/-- A fresh record of a kind other than SMART is well formed (R33). -/
theorem recordShape_of_fresh {r : Vector Byte 1024} {kind : Nat} {st : Status} (h : FreshRecord r kind st)
    (hkind : kind < 5) : RecordShape r := by
  obtain ⟨hk, hf, hzero⟩ := h
  have hflags := flags_lt_four st
  have hk : recordKind r = kind := hk
  have hf : recordFlags r = st.ckok.toNat + 2 * st.seqok.toNat := hf
  have notSmart : recordKind r ≠ 5 := by omega
  exact ⟨by omega, by omega, fun _ => by omega, hk ▸ hzero, fun h => absurd h notSmart, fun h => absurd h notSmart,
    fun h => absurd h notSmart⟩

/-! ## DECCHIP (R123, R124) -/

theorem exec_decchip (s : State) : exec .decchip s = .next (decchipWith Config.params s) := rfl

/-- All field writes of DECCHIP. -/
def chipWrites (P : Params) (s : State) : List RecWrite := recordHeader 1 s.status ++ chipBody P.chip s

theorem decchipWith_of_inRange (P : Params) (s : State) (h : FieldsInFrame s (chipFields P.chip)) :
    decchipWith P s = writeRecord (filled (chipWrites P s)) s :=
  decodeRecord_of_inRange _ _ _ _ _ h

theorem chipWrites_extents (P : Params) (s : State) (h : FieldsInFrame s (chipFields P.chip)) :
    (chipWrites P s).map writeExtent =
      [(0x000, 4), (0x004, 4), (0x010, 4), (0x018, 32), (0x038, 32), (0x014, 4)] := by
  have manuf := rawField_length s P.chip.manuf 32 (h (.raw P.chip.manuf 32) (by simp [chipFields]))
  have product := rawField_length s P.chip.product 32 (h (.raw P.chip.product 32) (by simp [chipFields]))
  simp [chipWrites, recordHeader, chipBody, putNat, manuf, product]

theorem chipWrites_fit (P : Params) (s : State) (h : FieldsInFrame s (chipFields P.chip)) :
    WritesFit (chipWrites P s) :=
  writesFit_of_extents (chipWrites_extents P s h) (by decide) (by decide)

theorem freshRecord_chip (P : Params) (s : State) (h : FieldsInFrame s (chipFields P.chip)) :
    FreshRecord (filled (chipWrites P s)) 1 s.status :=
  freshRecord_filled (by decide) (chipWrites_fit P s h) (by
    rw [show recordHeader 1 s.status ++ _ = chipWrites P s from rfl, chipWrites_extents P s h]
    decide)

/-- Settles O39: each field of R27 is one of DECCHIP's writes. -/
theorem decchipResult : Obligations.DecchipResult := by
  unfold Obligations.DecchipResult
  refine decoderResult_of_forall_params _ _ _ _ exec_decchip fun P s _ h => ?_
  have fit := chipWrites_fit P s h
  rw [decchipWith_of_inRange P s h, writeRecord_record]
  refine ⟨rfl, freshRecord_chip P s h, ?fw, ?serial, ?manuf, ?product⟩
  case fw => exact fit.number (by simp [chipWrites, chipBody]) (by decide)
  case serial => exact fit.number (by simp [chipWrites, chipBody]) (by decide)
  case manuf => exact fit.copied (by simp [chipWrites, chipBody]) (h (.raw P.chip.manuf 32) (by simp [chipFields]))
  case product => exact fit.copied (by simp [chipWrites, chipBody]) (h (.raw P.chip.product 32) (by simp [chipFields]))

/-! ## DECRPORT (R126 to R128) -/

theorem raidPortWrites_fit (P : Params) (s : State) (h : FieldsInFrame s (raidPortFields P.raidPort P.member)) :
    WritesFit (raidPortWrites P s) :=
  writesFit_of_extents (raidPortWrites_extents P s h) (by decide) (by decide)

theorem freshRecord_raidPort (P : Params) (s : State) (h : FieldsInFrame s (raidPortFields P.raidPort P.member)) :
    FreshRecord (filled (raidPortWrites P s)) 2 s.status :=
  freshRecord_filled (by decide) (raidPortWrites_fit P s h) (by
    rw [show recordHeader 2 s.status ++ _ = raidPortWrites P s from rfl, raidPortWrites_extents P s h]
    decide)

theorem width_bytes_le (w : Width) : w.bytes ≤ 4 := by
  cases w <;> decide

/-- Settles O40: each field of R28 but the members is one of DECRPORT's writes. -/
theorem decrportResult : Obligations.DecrportResult := by
  unfold Obligations.DecrportResult
  refine decoderResult_of_forall_params _ _ _ _ exec_decrport fun P s _ h => ?_
  rintro L E rfl rfl
  have fit := raidPortWrites_fit P s h
  rw [decrportWith_of_inRange P s h, writeRecord_record]
  have body : raidPortBody P.raidPort P.member P.enums s ⊆ raidPortWrites P s := List.subset_append_right _ _
  have level := fit.enum (body (show putEnum 0x04D P.enums.raidLevel (byteField s P.raidPort.level) ∈ _ by
    simp [raidPortBody]))
  have state := fit.enum (body (show putEnum 0x04F P.enums.raidState (byteField s P.raidPort.state) ∈ _ by
    simp [raidPortBody]))
  have capacity := fit.capacity (d := 0x06C) (d' := 0x070) (o := P.raidPort.capacity) (s := s)
    (List.Subset.trans (fun w hw => by simp [raidPortBody, hw]) body)
  refine ⟨rfl, freshRecord_raidPort P s h, ?model, ?serial, ?portState, level.1, level.2, state.1, state.2, ?count,
    ?prio, ?band, ?password, ?standby, ?seconds, ?progress, capacity.1, capacity.2⟩
  case model => exact fit.swapped (body (by simp [raidPortBody])) (h (.str _ 40) (by simp [raidPortFields]))
  case serial => exact fit.swapped (body (by simp [raidPortBody])) (h (.str _ 20) (by simp [raidPortFields]))
  case portState => exact fit.sliceByte (body (by simp [raidPortBody]))
  case count => exact fit.sliceByte (body (by simp [raidPortBody]))
  case prio => exact fit.number (body (by simp [raidPortBody])) (by decide)
  case band =>
    exact fit.byte (b := P.enums.rebuildBand (BitVec.ofNat 16 (natField s P.raidPort.rebuildPrio 2)))
      (body (by simp [raidPortBody]))
  case password => exact fit.copied (body (by simp [raidPortBody])) (h (.raw _ 8) (by simp [raidPortFields]))
  case standby => exact fit.number (body (by simp [raidPortBody])) (width_bytes_le _)
  case seconds =>
    exact fit.nat (v := natField s P.raidPort.standby.off P.raidPort.standby.width.bytes / 10)
      (body (by simp [raidPortBody])) (Nat.lt_of_le_of_lt (Nat.div_le_self _ _) (natField_lt_of_le _ _ (width_bytes_le _)))
  case progress => exact fit.number (body (by simp [raidPortBody])) (width_bytes_le _)

theorem memberBody_subset (P : Params) (s : State) (i : Nat) (hi : i < 5) :
    memberBody P.member s (0x080 + 0x20 * i) (memberBase P.raidPort i) ⊆ raidPortWrites P s := by
  intro w hw
  refine List.mem_append_right _ (List.mem_append_right _ ?_)
  exact List.mem_flatMap.2 ⟨i, List.mem_range.2 hi, hw⟩

/-- Settles O41: the six fields of R29 are the writes of one member's body, and DECRPORT runs all five bodies. -/
theorem decrportMembers : Obligations.DecrportMembers := by
  unfold Obligations.DecrportMembers
  refine decoderResult_of_forall_params _ _ _ _ exec_decrport fun P s _ h i hi m b M hM hm hb => ?_
  have fit := raidPortWrites_fit P s h
  have member := memberBody_subset P s i hi
  rw [← hM, ← hm] at member
  have addr : ∀ o, fieldAddr s (memberBase P.raidPort i + o) = b + o := fun o => by
    rw [hb, fieldAddr, memberBase]
    omega
  rw [decrportWith_of_inRange P s h, writeRecord_record]
  have capacity := fit.capacity (d := m + 0x08) (d' := m + 0x10) (List.Subset.trans (List.subset_append_right _ _) member)
  simp only [← addr]
  refine ⟨?ready, ?lba48, ?index, ?baseLba, capacity.1, capacity.2⟩
  case ready => exact fit.flag (member (by simp [memberBody]))
  case lba48 => exact fit.flag (member (by simp [memberBody]))
  case index => exact fit.sliceByte (member (by simp [memberBody]))
  case baseLba => exact fit.number (member (by simp [memberBody])) (by decide)

end Sys2Proof.Machine

/-! PROOF. DECSATA and DECSPORT (R130 to R134): the record fields an item and a single port share, and the two records. -/

namespace Sys2Proof.Machine

/-! ## The shared fields -/

/-- The extents of the shared record fields at REC offset `t` (R30, R31). -/
def diskExtents (t : Nat) : List (Nat × Nat) :=
  [ (t + 0x00, 40), (t + 0x28, 20), (t + 0x3C, 4), (t + 0x40, 8), (t + 0x48, 2), (t + 0x4A, 2), (t + 0x4C, 2),
    (t + 0x4E, 1), (t + 0x4F, 1), (t + 0x50, 1) ]

theorem diskBody_extents (D : DiskOffsets) (E : EnumTables) (s : State) (t : Nat) (h : FieldsInFrame s (diskFields D)) :
    (diskBody D E s t).map writeExtent = diskExtents t := by
  have model := strField_length s D.model 40 (h (.str D.model 40) (by simp [diskFields]))
  have serial := strField_length s D.serial 20 (h (.str D.serial 20) (by simp [diskFields]))
  simp [diskBody, diskExtents, putCapacity, putNat, putEnum, model, serial]

/-- A record whose writes hold the shared ones holds the shared fields. -/
theorem diskRecord_filled {ws : List RecWrite} (fit : WritesFit ws) (D : DiskOffsets) (E : EnumTables) (s : State)
    (t : Nat) (h : FieldsInFrame s (diskFields D)) (body : diskBody D E s t ⊆ ws) :
    DiskRecord (filled ws) t s D E := by
  have capacity := fit.capacity (d := t + 0x3C) (d' := t + 0x40) (o := D.capacity) (s := s)
    (List.Subset.trans (fun w hw => by simp [diskBody, hw]) body)
  have portType := fit.enum (body (show putEnum (t + 0x48) E.sataPortType (byteField s D.portType) ∈ _ by
    simp [diskBody]))
  have portSpeed := fit.enum (body (show putEnum (t + 0x4A) E.sataPortSpeed (byteField s D.portSpeed) ∈ _ by
    simp [diskBody]))
  have pageState := fit.enum (body (show putEnum (t + 0x4C) E.sataPageState (byteField s D.pageState) ∈ _ by
    simp [diskBody]))
  refine ⟨?model, ?serial, capacity.1, capacity.2, portType.1, portType.2, portSpeed.1, portSpeed.2, pageState.1,
    pageState.2, ?raidIndex, ?memberIndex, ?portNumber⟩
  case model => exact fit.swapped (body (by simp [diskBody])) (h (.str D.model 40) (by simp [diskFields]))
  case serial => exact fit.swapped (body (by simp [diskBody])) (h (.str D.serial 20) (by simp [diskFields]))
  case raidIndex => exact fit.sliceByte (body (by simp [diskBody]))
  case memberIndex => exact fit.sliceByte (body (by simp [diskBody]))
  case portNumber => exact fit.sliceByte (body (by simp [diskBody]))

/-! ## DECSATA (R130, R131) -/

theorem exec_decsata (s : State) : exec .decsata s = .next (decsataWith Config.params s) := rfl

/-- All field writes of DECSATA. -/
def sataWrites (P : Params) (s : State) : List RecWrite := recordHeader 3 s.status ++ sataBody P.item P.enums s

theorem decsataWith_of_inRange (P : Params) (s : State) (h : FieldsInFrame s (sataFields P.item)) :
    decsataWith P s = writeRecord (filled (sataWrites P s)) s :=
  decodeRecord_of_inRange _ _ _ _ _ h

theorem itemFields_inFrame {P : Params} {s : State} (h : FieldsInFrame s (sataFields P.item)) (i : Nat) (hi : i < 5) :
    FieldsInFrame s (diskFields (itemOffsets P.item i)) :=
  fun f hf => h f (List.mem_flatMap.2 ⟨i, List.mem_range.2 hi, hf⟩)

/-- The extents of a SataInfo record in the order DECSATA writes them (R26, R30). -/
def sataExtents : List (Nat × Nat) :=
  [(0x000, 4), (0x004, 4)] ++ (List.range 5).flatMap fun i => diskExtents (0x020 + 0x60 * i)

theorem sataWrites_extents (P : Params) (s : State) (h : FieldsInFrame s (sataFields P.item)) :
    (sataWrites P s).map writeExtent = sataExtents := by
  have items : (sataBody P.item P.enums s).map writeExtent =
      (List.range 5).flatMap fun i => diskExtents (0x020 + 0x60 * i) := by
    rw [sataBody, List.map_flatMap]
    exact List.flatMap_congr fun i hi => diskBody_extents _ _ _ _ (itemFields_inFrame h i (List.mem_range.1 hi))
  rw [sataWrites, List.map_append, items]
  simp [sataExtents, recordHeader, putNat]

theorem sataWrites_fit (P : Params) (s : State) (h : FieldsInFrame s (sataFields P.item)) :
    WritesFit (sataWrites P s) :=
  writesFit_of_extents (sataWrites_extents P s h) (by decide) (by decide)

theorem freshRecord_sata (P : Params) (s : State) (h : FieldsInFrame s (sataFields P.item)) :
    FreshRecord (filled (sataWrites P s)) 3 s.status :=
  freshRecord_filled (by decide) (sataWrites_fit P s h) (by
    rw [show recordHeader 3 s.status ++ _ = sataWrites P s from rfl, sataWrites_extents P s h]
    decide)

/-- Settles O42: item by item, the shared fields. -/
theorem decsataResult : Obligations.DecsataResult := by
  unfold Obligations.DecsataResult
  refine decoderResult_of_forall_params _ _ _ _ exec_decsata fun P s _ h => ?_
  rw [decsataWith_of_inRange P s h, writeRecord_record]
  refine ⟨rfl, freshRecord_sata P s h, fun i hi => ?_⟩
  refine diskRecord_filled (sataWrites_fit P s h) _ _ s _ (itemFields_inFrame h i hi) fun w hw => ?_
  exact List.mem_append_right _ (List.mem_flatMap.2 ⟨i, List.mem_range.2 hi, hw⟩)

/-! ## DECSPORT (R133, R134) -/

theorem exec_decsport (s : State) : exec .decsport s = .next (decsportWith Config.params s) := rfl

/-- All field writes of DECSPORT. -/
def sataPortWrites (P : Params) (s : State) : List RecWrite :=
  recordHeader 4 s.status ++ sataPortBody P.sataPort P.enums s

theorem decsportWith_of_inRange (P : Params) (s : State) (h : FieldsInFrame s (sataPortFields P.sataPort)) :
    decsportWith P s = writeRecord (filled (sataPortWrites P s)) s :=
  decodeRecord_of_inRange _ _ _ _ _ h

theorem portFields_inFrame {P : Params} {s : State} (h : FieldsInFrame s (sataPortFields P.sataPort)) :
    FieldsInFrame s (diskFields (portOffsets P.sataPort)) :=
  fun f hf => h f (List.mem_append_left _ hf)

/-- The extents of a SataPortInfo record in the order DECSPORT writes them (R26, R31). -/
def sataPortExtents : List (Nat × Nat) :=
  [(0x000, 4), (0x004, 4)] ++ diskExtents 0x020 ++ [(0x074, 4), (0x078, 8), (0x080, 8)]

theorem sataPortWrites_extents (P : Params) (s : State) (h : FieldsInFrame s (sataPortFields P.sataPort)) :
    (sataPortWrites P s).map writeExtent = sataPortExtents := by
  have fw := strField_length s P.sataPort.fw 8 (h (.str P.sataPort.fw 8) (by simp [sataPortFields]))
  simp [sataPortWrites, sataPortBody, sataPortExtents, recordHeader, putNat, putCapacity, fw,
    diskBody_extents _ _ _ _ (portFields_inFrame h)]

theorem sataPortWrites_fit (P : Params) (s : State) (h : FieldsInFrame s (sataPortFields P.sataPort)) :
    WritesFit (sataPortWrites P s) :=
  writesFit_of_extents (sataPortWrites_extents P s h) (by decide) (by decide)

theorem freshRecord_sataPort (P : Params) (s : State) (h : FieldsInFrame s (sataPortFields P.sataPort)) :
    FreshRecord (filled (sataPortWrites P s)) 4 s.status :=
  freshRecord_filled (by decide) (sataPortWrites_fit P s h) (by
    rw [show recordHeader 4 s.status ++ _ = sataPortWrites P s from rfl, sataPortWrites_extents P s h]
    decide)

/-- Settles O43: the shared fields, and the two fields of R133 the port has of its own. -/
theorem decsportResult : Obligations.DecsportResult := by
  unfold Obligations.DecsportResult
  refine decoderResult_of_forall_params _ _ _ _ exec_decsport fun P s _ h => ?_
  have fit := sataPortWrites_fit P s h
  rw [decsportWith_of_inRange P s h, writeRecord_record]
  have body : sataPortBody P.sataPort P.enums s ⊆ sataPortWrites P s := List.subset_append_right _ _
  have disk := diskRecord_filled fit (portOffsets P.sataPort) P.enums s 0x020 (portFields_inFrame h)
    (List.Subset.trans (fun w hw => by simp [sataPortBody, hw]) body)
  have used := fit.capacity (d := 0x074) (d' := 0x078) (o := P.sataPort.used) (s := s)
    (List.Subset.trans (fun w hw => by simp [sataPortBody, hw]) body)
  exact ⟨rfl, freshRecord_sataPort P s h, disk, used.1, used.2,
    fit.swapped (body (by simp [sataPortBody])) (h (.str P.sataPort.fw 8) (by simp [sataPortFields]))⟩

end Sys2Proof.Machine

/-! PROOF. DECSMARTV and DECSMARTT (R32, R136 to R138), and with them the two statements over all decoders: what REC held
before is forgotten (R33 (b)), and every step keeps REC a record of its kind (R33 (a), R37 (h)). -/

namespace Sys2Proof.Machine

/-! ## DECSMARTV's writes -/

theorem exec_decsmartv (s : State) : exec .decsmartv s = .next (decsmartvWith Config.params s) := rfl

/-- All field writes of DECSMARTV. -/
def smartWrites (P : Params) (s : State) : List RecWrite := recordHeader 5 s.status ++ smartBody P.smart P.enums s

theorem decsmartvWith_of_inRange (P : Params) (s : State) (h : smartInRange s = true) :
    decsmartvWith P s = writeRecord (filled (smartWrites P s)) s := by
  rw [decsmartvWith, h]
  rfl

/-- The extents of a present slot at REC offset `d` (R32): byte 6, the threshold, is in none of them. -/
def slotExtents (d : Nat) : List (Nat × Nat) := [(d + 0x0, 2), (d + 0x2, 2), (d + 0x4, 1), (d + 0x5, 1), (d + 0x8, 8)]

/-- Whether slot `i` of the value page is present: its id byte is not 0 (R32, R137). -/
def SlotPresent (P : Params) (s : State) (i : Nat) : Prop := byteField s (slotOffset i + P.smart.id) ≠ 0

theorem slotBody_of_absent {P : Params} {s : State} {i : Nat} (h : ¬SlotPresent P s i) :
    slotBody P.smart P.enums s (slotRecord i) (slotOffset i) = [] := by
  rw [slotBody_eq, if_pos (Decidable.not_not.1 h)]

theorem slotBody_of_present {P : Params} {s : State} {i : Nat} (h : SlotPresent P s i) :
    slotBody P.smart P.enums s (slotRecord i) (slotOffset i) =
      [ putEnum (slotRecord i) P.enums.smartName (byteField s (slotOffset i + P.smart.id)),
        putNat (slotRecord i + 0x2) 2 (natField s (slotOffset i + P.smart.flags) 2),
        (slotRecord i + 0x4, [byteField s (slotOffset i + P.smart.cur)]),
        (slotRecord i + 0x5, [byteField s (slotOffset i + P.smart.worst)]),
        putNat (slotRecord i + 0x8) 8 (natField s (slotOffset i + P.smart.raw) 6) ] := by
  rw [slotBody_eq, if_neg h]
  rfl

theorem slotBody_extents_of_present {P : Params} {s : State} {i : Nat} (h : SlotPresent P s i) :
    (slotBody P.smart P.enums s (slotRecord i) (slotOffset i)).map writeExtent = slotExtents (slotRecord i) := by
  rw [slotBody_of_present h]
  rfl

theorem mem_slotBody {P : Params} {s : State} {i : Nat} {w : RecWrite}
    (hw : w ∈ slotBody P.smart P.enums s (slotRecord i) (slotOffset i)) :
    SlotPresent P s i ∧ writeExtent w ∈ slotExtents (slotRecord i) := by
  by_cases h : SlotPresent P s i
  · exact ⟨h, slotBody_extents_of_present h ▸ List.mem_map_of_mem hw⟩
  · rw [slotBody_of_absent h] at hw
    cases hw

/-- Every write of DECSMARTV is the header's or a present slot's. -/
theorem mem_smartWrites {P : Params} {s : State} {w : RecWrite} (hw : w ∈ smartWrites P s) :
    w ∈ recordHeader 5 s.status ∨ ∃ i < 30, SlotPresent P s i ∧ writeExtent w ∈ slotExtents (slotRecord i) := by
  rcases List.mem_append.1 hw with hw | hw
  · exact .inl hw
  · obtain ⟨i, hi, hw⟩ := List.mem_flatMap.1 hw
    exact .inr ⟨i, List.mem_range.1 hi, mem_slotBody hw⟩

theorem header_end {kind : Nat} {st : Status} {w : RecWrite} (hw : w ∈ recordHeader kind st) : w.1 + w.2.length ≤ 8 := by
  simp only [recordHeader, List.mem_cons, List.not_mem_nil, or_false] at hw
  rcases hw with rfl | rfl <;> simp [putNat]

/-- A slot's extents lie in its first six bytes or its last eight (R32). -/
theorem slotExtents_bounds {d : Nat} {e : Nat × Nat} (he : e ∈ slotExtents d) :
    d ≤ e.1 ∧ e.1 + e.2 ≤ d + 6 ∨ d + 8 ≤ e.1 ∧ e.1 + e.2 ≤ d + 16 := by
  simp only [slotExtents, List.mem_cons, List.not_mem_nil, or_false] at he
  rcases he with rfl | rfl | rfl | rfl | rfl <;> simp

/-- A byte of slot `i` that no write reaches: any if the slot is absent, bytes 6 and 7 always. -/
theorem byteAt_smart_of_unwritten (P : Params) (s : State) (i j : Nat) (hj : j < 16)
    (h : SlotPresent P s i → j = 6 ∨ j = 7) : byteAt (filled (smartWrites P s)) (slotRecord i + j) = 0 := by
  rw [byteAt_putFields_of_out, byteAt_zeroBytes]
  intro w hw
  rcases mem_smartWrites hw with hheader | ⟨k, _, hpresent, hextent⟩
  · have := header_end hheader
    unfold slotRecord
    omega
  · have bounds := slotExtents_bounds hextent
    simp only [slotRecord] at *
    by_cases hk : k = i
    · subst hk
      have := h hpresent
      omega
    · omega

theorem slotExtents_apart (d : Nat) : (slotExtents d).Pairwise ExtentsApart := by
  simp [slotExtents, ExtentsApart]

/-- The slots stand apart, 16 bytes each, and so do the fields of one. -/
theorem smartBody_apart (P : Params) (s : State) : (smartBody P.smart P.enums s).Pairwise RecWritesApart := by
  rw [smartBody, List.pairwise_flatMap]
  constructor
  · intro i _
    by_cases h : SlotPresent P s i
    · exact pairwise_of_extents _ _ (slotBody_extents_of_present h) (slotExtents_apart _)
    · rw [slotBody_of_absent h]
      exact .nil
  · refine (List.pairwise_lt_range (n := 30)).imp fun {i k} hik w hw v hv => .inl ?_
    have hwi := slotExtents_bounds (mem_slotBody hw).2
    have hvk := slotExtents_bounds (mem_slotBody hv).2
    simp only [slotRecord] at hwi hvk
    omega

theorem smartWrites_fit (P : Params) (s : State) : WritesFit (smartWrites P s) where
  apart := by
    refine List.pairwise_append.2 ⟨?_, smartBody_apart P s, fun w hw v hv => .inl ?_⟩
    · simp [recordHeader, putNat, RecWritesApart]
    · obtain ⟨i, _, hv⟩ := List.mem_flatMap.1 hv
      have hend := header_end hw
      have hstart := slotExtents_bounds (mem_slotBody hv).2
      simp only [slotRecord] at hstart
      omega
  inside := by
    intro w hw
    rcases mem_smartWrites hw with hw | ⟨i, hi, _, hw⟩
    · have := header_end hw
      omega
    · have bounds := slotExtents_bounds hw
      simp only [slotRecord] at bounds
      omega

theorem smartWrites_named (P : Params) (s : State) : ExtentsNamed 5 ((smartWrites P s).map writeExtent) := by
  intro e he
  obtain ⟨w, hw, rfl⟩ := List.mem_map.1 he
  rcases mem_smartWrites hw with hw | ⟨i, hi, _, hw⟩
  · exact ⟨(0, 8), by simp [recordExtents], by simp, by simpa using header_end hw⟩
  · have named : ∀ g ∈ [(0x020 + 0x10 * i, 7), (0x028 + 0x10 * i, 8)], g ∈ recordExtents 5 := fun g hg =>
      List.mem_append_right _ (List.mem_flatMap.2 ⟨i, List.mem_range.2 hi, hg⟩)
    simp only [List.forall_mem_cons] at named
    obtain ⟨hfirst, hlast, _⟩ := named
    rcases slotExtents_bounds hw with ⟨hstart, hend⟩ | ⟨hstart, hend⟩ <;> unfold slotRecord at hstart hend
    · exact ⟨_, hfirst, hstart, by omega⟩
    · exact ⟨_, hlast, by omega, by omega⟩

theorem freshRecord_smart (P : Params) (s : State) : FreshRecord (filled (smartWrites P s)) 5 s.status :=
  freshRecord_filled (by decide) (smartWrites_fit P s) (smartWrites_named P s)

/-! ## The slots of a value record -/

theorem slotBody_subset (P : Params) (s : State) (i : Nat) (hi : i < 30) :
    slotBody P.smart P.enums s (slotRecord i) (slotOffset i) ⊆ smartWrites P s :=
  fun _ hw => List.mem_append_right _ (List.mem_flatMap.2 ⟨i, List.mem_range.2 hi, hw⟩)

section
variable (P : Params) (s : State) (i : Nat) (hi : i < 30) (h : SlotPresent P s i)
include hi h

/-- The id of a present slot, and right after it the code of its name (R32). -/
theorem smart_id :
    byteAt (filled (smartWrites P s)) (slotRecord i) = byteField s (slotOffset i + P.smart.id) ∧
    byteAt (filled (smartWrites P s)) (slotRecord i + 1) =
      P.enums.smartName (byteField s (slotOffset i + P.smart.id)) :=
  (smartWrites_fit P s).enum (slotBody_subset P s i hi (by simp [slotBody_of_present h]))

/-- The raw value of a present slot, in eight bytes (R32). -/
theorem smart_raw :
    natAt (filled (smartWrites P s)) (slotRecord i + 8) 8 = natField s (slotOffset i + P.smart.raw) 6 :=
  (smartWrites_fit P s).number (slotBody_subset P s i hi (by simp [slotBody_of_present h])) (by decide)

/-- The two high bytes of a 48-bit raw value are 0 (R32). -/
theorem smart_raw_high (j : Nat) (h6 : 6 ≤ j) (h8 : j < 8) :
    byteAt (filled (smartWrites P s)) (slotRecord i + 8 + j) = 0 := by
  have hw : (slotRecord i + 8, bytesOfNat 8 (natField s (slotOffset i + P.smart.raw) 6)) ∈ smartWrites P s :=
    slotBody_subset P s i hi (by simp [slotBody_of_present h, putNat])
  have hbyte := bytesOfNat_getElem? 8 (natField s (slotOffset i + P.smart.raw) 6) j
  have hsmall : natField s (slotOffset i + P.smart.raw) 6 < 256 ^ j := natField_lt_of_le s _ h6
  rw [if_pos h8, Nat.div_eq_of_lt hsmall, List.getElem?_eq_some_iff] at hbyte
  obtain ⟨_, hbyte⟩ := hbyte
  rw [(smartWrites_fit P s).byteAt_add hw j (by simpa using h8), hbyte]
  rfl

end

/-- Settles O44: a present slot holds its writes, and no write reaches an absent one or a threshold. -/
theorem decsmartvResult : Obligations.DecsmartvResult := by
  unfold Obligations.DecsmartvResult
  intro s L hL _ hroff
  subst hL
  refine ⟨_, exec_decsmartv s, ?_⟩
  rw [decsmartvWith_of_inRange _ s ((inRange_iff s 0 382).2 hroff), writeRecord_record]
  refine ⟨rfl, freshRecord_smart _ s, fun i hi d b hd hb => ?_⟩
  obtain rfl : d = slotRecord i := hd
  have addr : ∀ o, byteAt s.fb (b + o) = byteField s (slotOffset i + o) := fun o => by
    rw [byteField, fieldAddr, hb, slotOffset, Nat.add_assoc s.roff.toNat]
  have naddr : ∀ o k, natAt s.fb (b + o) k = natField s (slotOffset i + o) k := fun o k => by
    rw [natField, fieldAddr, hb, slotOffset, Nat.add_assoc s.roff.toNat]
  simp only [addr, naddr]
  refine ⟨fun habsent j hj => ?_, fun hpresent => ?_⟩
  · exact byteAt_smart_of_unwritten _ s i j hj fun hpresent => absurd habsent hpresent
  · have fit := smartWrites_fit Config.params s
    have slot := slotBody_subset Config.params s i hi
    obtain ⟨hid, hname⟩ := smart_id _ s i hi hpresent
    refine ⟨hid, hname, ?flags, ?cur, ?worst, ?threshold, smart_raw _ s i hi hpresent⟩
    case flags => exact fit.number (slot (by simp [slotBody_of_present hpresent])) (by decide)
    case cur => exact fit.sliceByte (slot (by simp [slotBody_of_present hpresent]))
    case worst => exact fit.sliceByte (slot (by simp [slotBody_of_present hpresent]))
    case threshold => exact byteAt_smart_of_unwritten _ s i 6 (by decide) fun _ => .inl rfl

/-! ## The old record is forgotten -/

/-- No plan looks at REC. -/
theorem decoderPlan_record (P : Params) (s : State) (r : Vector Byte 1024) (i : Instr) :
    decoderPlan P { s with record := r } i = decoderPlan P s i := by
  cases i <;> rfl

/-- A zeroing decoder that completes gives the same state whatever REC held. -/
theorem zeroingDecoder_forgets {i : Instr} {op : Params → State → State} (hi : (i, op) ∈ zeroingDecoders) (P : Params)
    (s : State) (r : Vector Byte 1024) (hflt : (op P s).status.flt = false) : op P { s with record := r } = op P s := by
  obtain ⟨_, plans⟩ := exists_plan_of_mem_zeroingDecoders i op hi
  obtain ⟨p, hp, hop⟩ := plans P s
  obtain ⟨p', hp', hop'⟩ := plans P { s with record := r }
  obtain rfl : p = p' := by
    rw [decoderPlan_record, hp] at hp'
    exact Option.some.inj hp'
  rw [hop, hop']
  obtain ⟨hfits, _⟩ | ⟨_, hfault⟩ := decodeRecord_cases i p.kind p.fits p.body s _ rfl
  · rw [hfits]
    rfl
  · rw [hop, hfault] at hflt
    cases hflt

/-- Settles O49: a decoder that has not faulted has filled REC afresh from a plan that does not look at REC. -/
theorem decodersForgetTheOldRecord : Obligations.DecodersForgetTheOldRecord := by
  unfold Obligations.DecodersForgetTheOldRecord
  intro i op hi
  refine ⟨fun P s r _ hflt => zeroingDecoder_forgets hi P s r hflt, fun s t r _ ht hflt => ?_⟩
  obtain ⟨hexec, _⟩ := exists_plan_of_mem_zeroingDecoders i op hi
  rw [hexec, Host.Outcome.next.injEq] at ht
  subst ht
  rw [hexec, zeroingDecoder_forgets hi _ s r hflt]

/-! ## The shape of REC -/

theorem recordShape_smart (P : Params) (s : State) : RecordShape (filled (smartWrites P s)) := by
  obtain ⟨hk, hf, hzero⟩ := freshRecord_smart P s
  have hflags := flags_lt_four s.status
  have hk : recordKind (filled (smartWrites P s)) = 5 := hk
  have hf : recordFlags (filled (smartWrites P s)) = _ := hf
  have absent : ∀ i < 30, ¬SlotPresent P s i → ∀ j < 16, byteAt (filled (smartWrites P s)) (slotRecord i + j) = 0 :=
    fun i _ habsent j hj => byteAt_smart_of_unwritten P s i j hj fun hpresent => absurd hpresent habsent
  refine ⟨by omega, by omega, fun h => absurd hk h, hk ▸ hzero, fun _ i hi hid => ?absent, fun _ i hi => ?raw48,
    fun _ _ i _ => byteAt_smart_of_unwritten P s i 6 (by decide) fun _ => .inl rfl⟩
  case absent =>
    exact absent i hi fun hpresent => hpresent ((smart_id P s i hi hpresent).1.symm.trans hid)
  case raw48 =>
    by_cases hpresent : SlotPresent P s i
    · exact ⟨smart_raw_high P s i hi hpresent 6 (by decide) (by decide),
        smart_raw_high P s i hi hpresent 7 (by decide) (by decide)⟩
    · exact ⟨absent i hi hpresent 14 (by decide), absent i hi hpresent 15 (by decide)⟩

/-- Whichever zeroing decoder completes leaves a well-formed record (R33). -/
theorem recordShape_of_plan {P : Params} {s : State} {i : Instr} {p : DecoderPlan} (hp : decoderPlan P s i = some p)
    (hfits : p.fits = true) : RecordShape (p.freshRecord s.status) := by
  cases i with
  | decchip =>
    cases hp
    exact recordShape_of_fresh (freshRecord_chip P s ((allInRange_iff s _).1 hfits)) (by decide)
  | decrport =>
    cases hp
    exact recordShape_of_fresh (freshRecord_raidPort P s ((allInRange_iff s _).1 hfits)) (by decide)
  | decsata =>
    cases hp
    exact recordShape_of_fresh (freshRecord_sata P s ((allInRange_iff s _).1 hfits)) (by decide)
  | decsport =>
    cases hp
    exact recordShape_of_fresh (freshRecord_sataPort P s ((allInRange_iff s _).1 hfits)) (by decide)
  | decsmartv =>
    cases hp
    exact recordShape_smart P s
  | _ => cases hp

/-- RFLAGS is its low byte and three more. -/
theorem recordFlags_eq (r : Vector Byte 1024) : recordFlags r = (byteAt r 4).toNat + 256 * natAt r 5 3 :=
  natAt_succ r 4 3 (by decide)

theorem recordKind_mergedRecord (s : State) : recordKind (mergedRecord s) = recordKind s.record :=
  natAt_congr _ _ _ _ fun off _ _ => byteAt_mergedRecord_of_out s off (by omega) fun i _ => by
    unfold slotRecord
    omega

/-- A merge keeps the legal bits legal and sets THRMERGED (R26, R138). -/
theorem mergedFlags_bounds (old : Byte) (st : Status) (h : old.toNat < 32) :
    (mergedFlags old st).toNat < 32 ∧ (mergedFlags old st).toNat / 4 % 2 = 1 := by
  have all : ∀ a < 32, ∀ ck sq : Bool,
      let new := (BitVec.ofNat 8 a &&& 0xE3) ||| BitVec.ofNat 8 (4 + 8 * ck.toNat + 16 * sq.toNat)
      new.toNat < 32 ∧ new.toNat / 4 % 2 = 1 := by
    decide
  have := all old.toNat h st.ckok st.seqok
  rwa [BitVec.ofNat_toNat, BitVec.setWidth_eq] at this

theorem recordFlags_mergedRecord (s : State) (h : recordFlags s.record < 32) :
    recordFlags (mergedRecord s) < 32 ∧ recordFlags (mergedRecord s) / 4 % 2 = 1 := by
  have high : natAt (mergedRecord s) 5 3 = natAt s.record 5 3 :=
    natAt_congr _ _ _ _ fun off _ _ => byteAt_mergedRecord_of_out s off (by omega) fun i _ => by
      unfold slotRecord
      omega
  rw [recordFlags_eq] at h
  have bounds := mergedFlags_bounds (byteAt s.record 4) s.status (by omega)
  rw [recordFlags_eq, byteAt_mergedRecord_flags, high]
  omega

/-- A merge writes only bytes that R32 names. -/
theorem byteAt_mergedRecord_of_unnamed (s : State) (off : Nat) (h : recordNames 5 off = false) :
    byteAt (mergedRecord s) off = byteAt s.record off := by
  have hout := List.any_eq_false.1 h
  refine byteAt_mergedRecord_of_out s off ?_ fun i hi => ?_
  · have := hout (0x000, 8) (by simp [recordExtents])
    rw [decide_eq_true_eq] at this
    omega
  · have := hout (0x020 + 0x10 * i, 7)
      (List.mem_append_right _ (List.mem_flatMap.2 ⟨i, List.mem_range.2 hi, by simp⟩))
    rw [decide_eq_true_eq] at this
    unfold slotRecord
    omega

/-- A byte of a slot other than its threshold is as before the merge (R33 (c)). -/
theorem byteAt_mergedRecord_slot (s : State) (i j : Nat) (hj : j < 16) (h6 : j ≠ 6) :
    byteAt (mergedRecord s) (slotRecord i + j) = byteAt s.record (slotRecord i + j) :=
  byteAt_mergedRecord_of_out s _ (by unfold slotRecord; omega) fun k _ => by
    unfold slotRecord
    omega

theorem recordShape_mergedRecord (s : State) (hs : RecordShape s.record) (hkind : recordKind s.record = 5) :
    RecordShape (mergedRecord s) := by
  have hk : recordKind (mergedRecord s) = 5 := (recordKind_mergedRecord s).trans hkind
  obtain ⟨hflags, hmerged⟩ := recordFlags_mergedRecord s hs.flags
  refine ⟨by omega, hflags, fun h => absurd hk h, ?unnamed, fun _ i hi hid j hj => ?absent, fun _ i hi => ?raw48,
    fun _ h => by omega⟩
  case unnamed =>
    intro off hoff hname
    rw [hk] at hname
    rw [byteAt_mergedRecord_of_unnamed s off hname]
    exact hs.unnamed off hoff (hkind ▸ hname)
  case absent =>
    have hid : byteAt s.record (slotRecord i) = 0 := (byteAt_mergedRecord_slot s i 0 (by decide) (by decide)).symm.trans hid
    have hold := hs.absent hkind i hi hid j hj
    by_cases h6 : j = 6
    · rw [h6, byteAt_mergedRecord_threshold s i hi, if_pos hid, ← h6, hold]
    · rw [byteAt_mergedRecord_slot s i j hj h6, hold]
  case raw48 =>
    rw [byteAt_mergedRecord_slot s i 14 (by decide) (by decide), byteAt_mergedRecord_slot s i 15 (by decide) (by decide)]
    exact hs.raw48 hkind i hi

theorem natAt_zeroBytes (n a k : Nat) (h : a + k ≤ n) : natAt (zeroBytes n) a k = 0 := by
  induction k generalizing a with
  | zero => exact natAt_zero _ a
  | succ k ih =>
    rw [natAt_succ _ a k (by omega), byteAt_zeroBytes, ih (a + 1) (by omega)]
    rfl

/-- REC after reset: no record (R34). -/
theorem recordShape_zeroBytes : RecordShape (zeroBytes 1024) := by
  have hk : recordKind (zeroBytes 1024) = 0 := natAt_zeroBytes 1024 0 4 (by decide)
  have hf : recordFlags (zeroBytes 1024) = 0 := natAt_zeroBytes 1024 4 4 (by decide)
  exact ⟨by omega, by omega, fun _ => by omega, fun off _ _ => byteAt_zeroBytes _ off,
    fun _ _ _ _ _ _ => byteAt_zeroBytes _ _, fun _ _ _ => ⟨byteAt_zeroBytes _ _, byteAt_zeroBytes _ _⟩,
    fun _ _ _ _ => byteAt_zeroBytes _ _⟩

theorem recordShape_afterReset (n : Nat) (p : List HostAccess) : RecordShape (State.afterReset n p).record :=
  recordShape_zeroBytes

/-- Settles O60: REC is written by a zeroing decoder, afresh, by the merge, in place, or by reset. -/
theorem stepKeepsRecordShape : Obligations.StepKeepsRecordShape := by
  unfold Obligations.StepKeepsRecordShape
  refine step_preserves (fun s => RecordShape s.record) ?bus recordShape_afterReset ?write ?opc ?op
  case bus => exact fun s p r hs => hs
  case write =>
    intro s t h hs
    cases h <;> exact hs
  case opc => exact fun s c _ hs => hs
  case op =>
    intro i s t _ h hs
    cases h with
    | decoded p hp hfits => exact recordShape_of_plan hp hfits
    | merged _ hkind => exact recordShape_mergedRecord s hs hkind
    | _ => exact hs

/-- Settles O55: each invariant holds after any reset. -/
theorem resetMeetsInvariants : Obligations.ResetMeetsInvariants := by
  unfold Obligations.ResetMeetsInvariants
  obtain ⟨hexclusive, hsound⟩ := verdictsHold_of_unset State.reset rfl rfl
  exact ⟨hexclusive, hsound, stringTailZero_afterReset 0 [], sequenceShape_afterReset 0 [], faultShape_afterReset 0 [],
    recordShape_afterReset 0 []⟩

end Sys2Proof.Machine

/-! PROOF. The host's reads, the refused accesses, the frozen block and progress (R41 to R47): which rows of the map take an
access, said once, and R42's ranges read off the map. -/

namespace Sys2Proof.Machine

/-! ## The row of an access -/

/-- What R42 (a), (b), (d) ask of an access against one row of the map. -/
structure WindowRow.Takes (r : WindowRow) (off : Nat) (size : AccessSize) : Prop where
  aligned : off % accessBytes size = 0
  start_le : r.start ≤ off
  le_end : off + accessBytes size ≤ r.start + r.size
  width : r.wordOnly = true → size = .word

theorem windowMap_disjoint : ∀ r ∈ windowMap, ∀ r' ∈ windowMap,
    r.start < r'.start + r'.size → r'.start < r.start + r.size → r = r' := by
  decide

/-- No access lies in two rows, so the row found is the only one that holds it (R41). -/
theorem rowOf_eq_some_iff {off n : Nat} (hn : 0 < n) (r : WindowRow) :
    rowOf off n = some r ↔ r ∈ windowMap ∧ r.start ≤ off ∧ off + n ≤ r.start + r.size := by
  constructor
  · intro h
    exact ⟨List.mem_of_find?_eq_some h, of_decide_eq_true (List.find?_some h :)⟩
  · rintro ⟨hr, hin⟩
    have hfound : (rowOf off n).isSome := List.find?_isSome.2 ⟨r, hr, decide_eq_true hin⟩
    obtain ⟨r', h'⟩ := Option.isSome_iff_exists.1 hfound
    have hr' : r' ∈ windowMap := List.mem_of_find?_eq_some h'
    have hin' : r'.start ≤ off ∧ off + n ≤ r'.start + r'.size := of_decide_eq_true (List.find?_some h' :)
    rw [h', windowMap_disjoint r hr r' hr' (by omega) (by omega)]

theorem accessRow_eq_some_iff (off : Nat) (size : AccessSize) (r : WindowRow) :
    accessRow off size = some r ↔ r ∈ windowMap ∧ r.Takes off size := by
  unfold accessRow
  split
  next halign =>
    simp only [Option.filter_eq_some_iff, rowOf_eq_some_iff (accessBytes_pos size), Bool.or_eq_true,
      Bool.not_eq_true', decide_eq_true_eq, ← Bool.not_eq_true, ← imp_iff_not_or]
    exact ⟨fun ⟨⟨hr, hs, he⟩, hw⟩ => ⟨hr, halign, hs, he, hw⟩,
      fun ⟨hr, htakes⟩ => ⟨⟨hr, htakes.start_le, htakes.le_end⟩, htakes.width⟩⟩
  next hodd => exact ⟨nofun, fun ⟨_, htakes⟩ => absurd htakes.aligned hodd⟩

/-- A read is legal exactly where a readable row takes it (R42). -/
theorem legalRead_eq_some_iff (off : Nat) (size : AccessSize) (a : Area × Nat) :
    legalRead off size = some a ↔
      ∃ r ∈ windowMap, r.Takes off size ∧ r.readable = true ∧ (r.area, off - r.start) = a := by
  simp [legalRead, accessRow_eq_some_iff, and_assoc]

/-- A write to a running block is legal exactly where a writable row takes it (R42). -/
theorem legalWrite_eq_some_iff (off : Nat) (size : AccessSize) (a : Area × Nat) :
    legalWrite false off size = some a ↔
      ∃ r ∈ windowMap, r.Takes off size ∧ r.writable = true ∧ (r.area, off - r.start) = a := by
  simp [legalWrite, accessRow_eq_some_iff, and_assoc]

/-! ## R42's ranges against the map -/

/-- The readable rows of R41: the byte arrays, and the registers from STATUS to SLEN. -/
theorem readable_rows : ∀ r ∈ windowMap, r.readable = true →
    (r.start + r.size ≤ 0x3F8 ∨ 0x440 ≤ r.start ∧ r.start + r.size ≤ 0x480 ∨
      0x800 ≤ r.start ∧ r.start + r.size ≤ 0xC00) ∨
    (r.wordOnly = true ∧ 0x404 ≤ r.start ∧ r.start + r.size ≤ 0x434) := by
  decide

/-- The twelve registers from STATUS to SLEN leave no gap (R41). -/
theorem register_rows : ∀ k < 12, ∃ r ∈ windowMap,
    r.start = 0x404 + 4 * k ∧ r.size = 4 ∧ r.readable = true := by
  decide

/-- The writable rows of R41: FB, PB, and four registers. -/
theorem writable_rows : ∀ r ∈ windowMap, r.writable = true →
    r.start + r.size ≤ 0x3F8 ∨
    (r.wordOnly = true ∧ r.size = 4 ∧ (r.start = 0x400 ∨ r.start = 0x410 ∨ r.start = 0x41C ∨ r.start = 0x420)) := by
  decide

/-- Every access size divides 4, so an aligned access does not straddle a multiple of 4 (R44). -/
theorem le_of_aligned_of_lt {off bound : Nat} {size : AccessSize} (halign : off % accessBytes size = 0)
    (hbound : bound % 4 = 0) (hlt : off < bound) : off + accessBytes size ≤ bound := by
  cases size <;> simp only [accessBytes] at halign ⊢ <;> omega

theorem eq_word_of_accessBytes {size : AccessSize} (h : accessBytes size = 4) : size = .word := by
  cases size with
  | word => rfl
  | byte | half => cases h

/-! ## The byte arrays -/

/-- A read of array `v` from `rel` on: it is legal, answers the little-endian value there, and `memByte` sees the same
bytes (R41, R43). -/
structure ArrayRead {n : Nat} (s : State) (off : Nat) (size : AccessSize) (v : Vector Byte n) (rel : Nat) : Prop where
  legal : ∃ area, legalRead off size = some (area, rel) ∧
    areaRead s area rel (accessBytes size) = BitVec.ofNat 32 (natAt v rel (accessBytes size))
  inside : rel + accessBytes size ≤ n
  bytes : ∀ j < accessBytes size, memByte s (off + j) = some (byteAt v (rel + j))

/-- An aligned read that starts in an array's row stays in it, for no row of an array ends inside an aligned access. -/
theorem arrayRead_of_row {n : Nat} {s : State} {off : Nat} {size : AccessSize} {v : Vector Byte n} (r : WindowRow)
    (hr : r ∈ windowMap) (hrow : r.readable = true ∧ r.wordOnly = false ∧ r.size = n ∧ (r.start + n) % 4 = 0)
    (hread : ∀ rel k, areaRead s r.area rel k = BitVec.ofNat 32 (natAt v rel k))
    (hmem : ∀ i < n, memByte s (r.start + i) = some (byteAt v i))
    (halign : off % accessBytes size = 0) (hstart : r.start ≤ off) (hlt : off < r.start + n) :
    ArrayRead s off size v (off - r.start) := by
  obtain ⟨hreadable, hwide, hsize, hfour⟩ := hrow
  have hend : off + accessBytes size ≤ r.start + n := le_of_aligned_of_lt halign hfour hlt
  have htakes : r.Takes off size := ⟨halign, hstart, hsize ▸ hend, by simp [hwide]⟩
  refine ⟨⟨r.area, (legalRead_eq_some_iff ..).2 ⟨r, hr, htakes, hreadable, rfl⟩, hread _ _⟩, by omega, fun j hj => ?_⟩
  rw [← hmem _ (by omega)]
  congr 1
  omega

/-- The offsets with byte storage are those of FB and PB, of SR and of REC (R41). -/
theorem memByte_isSome_iff (s : State) (off : Nat) :
    (memByte s off).isSome ↔ off < 0x3F8 ∨ (0x440 ≤ off ∧ off < 0x480) ∨ (0x800 ≤ off ∧ off < 0xC00) := by
  unfold memByte
  split_ifs <;> simp <;> omega

/-- An aligned read whose first byte has storage is a read of one of the four arrays (R41). -/
theorem exists_arrayRead (s : State) {off : Nat} {size : AccessSize} (halign : off % accessBytes size = 0)
    (hstored : (memByte s off).isSome) :
    ∃ (n : Nat) (v : Vector Byte n) (rel : Nat), ArrayRead s off size v rel := by
  have hrange := (memByte_isSome_iff s off).1 hstored
  by_cases hfb : off < 0x200
  · exact ⟨_, s.fb, _, arrayRead_of_row ⟨0x000, 512, .fb, true, true, false⟩ (by decide) (by decide) (fun _ _ => rfl)
      (by simpa using memByte_fb s) halign (Nat.zero_le _) (by simpa)⟩
  obtain hpb | ⟨hsr, hsrEnd⟩ | ⟨hrec, hrecEnd⟩ := hrange
  · exact ⟨_, s.pb, _, arrayRead_of_row ⟨0x200, 504, .pb, true, true, false⟩ (by decide) (by decide) (fun _ _ => rfl)
      (memByte_pb s) halign (Nat.le_of_not_lt hfb) hpb⟩
  · exact ⟨_, s.sr, _, arrayRead_of_row ⟨0x440, 64, .sr, true, false, false⟩ (by decide) (by decide) (fun _ _ => rfl)
      (memByte_sr s) halign hsr hsrEnd⟩
  · exact ⟨_, s.record, _, arrayRead_of_row ⟨0x800, 1024, .record, true, false, false⟩ (by decide) (by decide)
      (fun _ _ => rfl) (memByte_record s) halign hrec hrecEnd⟩

/-! ## R42's legal accesses are the model's -/

/-- R42's legal reads are those the model's map answers. -/
theorem legalRead_iff (off : Nat) (size : AccessSize) :
    (∃ a, legalRead off size = some a) ↔ ReadLegal off (accessBytes size) := by
  constructor
  · rintro ⟨a, ha⟩
    obtain ⟨r, hr, ⟨halign, hstart, hend, hwidth⟩, hread, -⟩ := (legalRead_eq_some_iff ..).1 ha
    refine ⟨halign, ?_⟩
    obtain harray | ⟨hword, hreg⟩ := readable_rows r hr hread
    · omega
    · obtain rfl := hwidth hword
      exact .inr (.inr (.inr ⟨rfl, by omega⟩))
  · rintro ⟨halign, hrange⟩
    by_cases hreg : accessBytes size = 4 ∧ 0x404 ≤ off ∧ off + accessBytes size ≤ 0x434
    · obtain ⟨hfour, hlo, hhi⟩ := hreg
      obtain ⟨r, hr, hstart, hsize, hread⟩ := register_rows ((off - 0x404) / 4) (by omega)
      have hrow : r.start = off ∧ off + accessBytes size ≤ r.start + r.size := by rw [hfour] at halign hhi ⊢; omega
      have htakes : r.Takes off size := ⟨halign, hrow.1.le, hrow.2, fun _ => eq_word_of_accessBytes hfour⟩
      exact ⟨_, (legalRead_eq_some_iff ..).2 ⟨r, hr, htakes, hread, rfl⟩⟩
    · have hpos := accessBytes_pos size
      obtain ⟨n, v, rel, hread⟩ := exists_arrayRead State.reset halign ((memByte_isSome_iff ..).2 (by omega))
      obtain ⟨area, hlegal, -⟩ := hread.legal
      exact ⟨_, hlegal⟩

/-- The model takes no write R42 does not permit. -/
theorem writeLegal_of_legalWrite {off : Nat} {size : AccessSize} {a : Area × Nat}
    (h : legalWrite false off size = some a) : WriteLegal off (accessBytes size) := by
  obtain ⟨r, hr, ⟨halign, hstart, hend, hwidth⟩, hwrite, -⟩ := (legalWrite_eq_some_iff ..).1 h
  refine ⟨halign, ?_⟩
  obtain harray | ⟨hword, hfour, hreg⟩ := writable_rows r hr hwrite
  · omega
  · obtain rfl := hwidth hword
    simp only [accessBytes] at hend
    exact .inr ⟨rfl, by omega⟩

/-! ## Refused accesses -/

theorem step_of_refusedRead {s : State} {off : Nat} {size : AccessSize} {rest : List HostAccess}
    (hp : s.pending = .read off size :: rest) (hrefused : legalRead off size = none) :
    step s = .next { s with pending := rest, response := .busError } := by
  simp [step, nextAccess, hp, perform, hostRead, windowRead, hrefused, respond]

theorem step_of_refusedWrite {s : State} {off : Nat} {size : AccessSize} {v : Word} {rest : List HostAccess}
    (hp : s.pending = .write off size v :: rest) (hrefused : legalWrite s.status.flt off size = none) :
    step s = .next { s with pending := rest, response := .busError } := by
  simp [step, nextAccess, hp, perform, hostWrite, hrefused, respond]

/-- Settles O9: R42's legal reads are those some readable row takes, and every other read is refused. -/
theorem hostReadsAnswerOrRefuse : Obligations.HostReadsAnswerOrRefuse := by
  unfold Obligations.HostReadsAnswerOrRefuse
  intro s off size rest hp
  rw [← legalRead_iff]
  constructor
  · rintro ⟨_, hlegal⟩
    exact ⟨_, step_of_legalRead hp hlegal⟩
  · intro hillegal
    exact step_of_refusedRead hp (Option.eq_none_iff_forall_ne_some.2 (not_exists.1 hillegal))

/-- Settles O10: a frozen block takes no write, and a running one only those R42 permits. -/
theorem illegalWritesAreRefused : Obligations.IllegalWritesAreRefused := by
  unfold Obligations.IllegalWritesAreRefused
  intro s off size v rest hp hillegal
  apply step_of_refusedWrite hp
  cases hflt : s.status.flt with
  | true => exact legalWrite_frozen off size
  | false =>
    have hnot : ¬WriteLegal off (accessBytes size) := hillegal.resolve_left (by simp [hflt])
    exact Option.eq_none_iff_forall_ne_some.2 fun _ ha => hnot (writeLegal_of_legalWrite ha)

/-! ## Little-endian reads -/

/-- A read of an array answers the little-endian value of its bytes (R43). -/
theorem ArrayRead.step_eq {n : Nat} {s : State} {off : Nat} {size : AccessSize} {v : Vector Byte n} {rel : Nat}
    {rest : List HostAccess} (hread : ArrayRead s off size v rel) (hp : s.pending = .read off size :: rest) :
    step s = .next
      { s with pending := rest, response := .data (BitVec.ofNat 32 (natAt v rel (accessBytes size))) } := by
  obtain ⟨area, hlegal, hvalue⟩ := hread.legal
  rw [step_of_legalRead hp hlegal, hvalue]

/-- The array's bytes are the ones `memByte` sees. -/
theorem ArrayRead.byteAt_eq {n : Nat} {s : State} {off : Nat} {size : AccessSize} {v : Vector Byte n} {rel : Nat}
    (hread : ArrayRead s off size v rel) {j : Nat} {b : Byte} (hb : memByte s (off + j) = some b)
    (hj : j < accessBytes size) : byteAt v (rel + j) = b :=
  Option.some.inj ((hread.bytes j hj).symm.trans hb)

theorem ArrayRead.first_byteAt_eq {n : Nat} {s : State} {off : Nat} {size : AccessSize} {v : Vector Byte n} {rel : Nat}
    (hread : ArrayRead s off size v rel) {b : Byte} (hb : memByte s off = some b) : byteAt v rel = b :=
  hread.byteAt_eq (j := 0) hb (accessBytes_pos size)

/-- `LE(a, 1)` is the byte (R102). -/
theorem natAt_one {n : Nat} (v : Vector Byte n) (a : Nat) (h : a + 1 ≤ n) : natAt v a 1 = (byteAt v a).toNat := by
  rw [natAt_succ _ _ _ h, natAt_zero, Nat.mul_zero, Nat.add_zero]

/-- Settles O11: the read is one of an array, whose little-endian value is its bytes, appended. -/
theorem arrayReadsAreLittleEndian : Obligations.ArrayReadsAreLittleEndian := by
  unfold Obligations.ArrayReadsAreLittleEndian
  intro s off rest b0 b1 b2 b3
  refine ⟨fun hp h0 => ?byte, fun hp halign h0 h1 => ?half, fun hp halign h0 h1 h2 h3 => ?word⟩
  case byte =>
    obtain ⟨n, v, rel, hread⟩ := exists_arrayRead (size := .byte) s (Nat.mod_one off) (by simp [h0])
    rw [hread.step_eq hp, accessBytes, natAt_one v rel hread.inside, hread.first_byteAt_eq h0,
      BitVec.ofNat_toNat]
  case half =>
    obtain ⟨n, v, rel, hread⟩ := exists_arrayRead (size := .half) s halign (by simp [h0])
    rw [hread.step_eq hp, accessBytes, natAt_two v rel hread.inside, hread.first_byteAt_eq h0,
      hread.byteAt_eq h1 (by decide), BitVec.ofNat_toNat]
  case word =>
    obtain ⟨n, v, rel, hread⟩ := exists_arrayRead (size := .word) s halign (by simp [h0])
    rw [hread.step_eq hp, accessBytes, natAt_four v rel hread.inside, hread.first_byteAt_eq h0,
      hread.byteAt_eq h1 (by decide), hread.byteAt_eq h2 (by decide), hread.byteAt_eq h3 (by decide),
      BitVec.ofNat_toNat, BitVec.setWidth_eq]

/-! ## The frozen block, and progress -/

/-- Settles O17: a frozen block's reads change the answer only, and its writes are refused. -/
theorem frozenBlockStaysFrozen : Obligations.FrozenBlockStaysFrozen := by
  unfold Obligations.FrozenBlockStaysFrozen
  intro s t hflt hreset h
  obtain ⟨hp, e⟩ | ⟨access, rest, hp, e⟩ := step_cases s
  · obtain rfl : s = t := by simpa [e] using h
    rw [hp, List.tail_nil, ← hp]
  · cases access with
    | reset => exact absurd hp (hreset rest)
    | read off size =>
      obtain ⟨r, hr⟩ := hostRead_eq_respond off size { s with pending := rest }
      obtain rfl : respond r { s with pending := rest } = t := by simpa [e, perform, hr] using h
      simp [hp, respond]
    | write off size v =>
      have hrefused : legalWrite s.status.flt off size = none := by rw [hflt, legalWrite_frozen]
      obtain rfl : { s with pending := rest, response := .busError } = t := by
        simpa [step_of_refusedWrite hp hrefused] using h
      simp [hp]

theorem command_next (c : Word) (s : State) : ∃ t, command c s = .next t := by
  obtain ⟨i, -, e⟩ | ⟨_, -, e⟩ := command_cases c s <;> rw [e]
  · exact exec_next i s
  · exact ⟨_, rfl⟩

theorem perform_next (access : HostAccess) (s : State) : ∃ t, perform access s = .next t := by
  cases access with
  | read off size => exact ⟨_, rfl⟩
  | reset => exact ⟨_, rfl⟩
  | write off size v =>
    rw [perform]
    obtain ⟨-, e⟩ | ⟨_, -, e⟩ | ⟨_, _, -, -, e⟩ := hostWrite_cases off size v s <;> rw [e]
    · exact ⟨_, rfl⟩
    · exact command_next v _
    · exact ⟨_, rfl⟩

/-- Settles O8: a step does nothing or performs one access, and every access answers a next state. -/
theorem everyStepHasSuccessor : Obligations.EveryStepHasSuccessor := by
  unfold Obligations.EveryStepHasSuccessor
  intro s
  obtain ⟨-, e⟩ | ⟨access, rest, -, e⟩ := step_cases s <;> rw [e]
  · exact ⟨_, rfl⟩
  · exact perform_next access _

end Sys2Proof.Machine

/-! PROOF. Decoding and encoding are inverse, and decoding goes by mask and match (R61 to R68). What a word decodes to is said
once, by the row of the opcode map its opcode selects. -/

namespace Sys2Proof

/-! ## The operands of an operation -/

theorem offOk_iff (off : Nat) : offOk off = true ↔ off < 512 := by
  rw [offOk, decide_eq_true_iff, Nat.lt_succ_iff]

theorem lenOk_iff (len : Nat) : lenOk len = true ↔ len < 256 := by
  rw [lenOk, decide_eq_true_iff, Nat.lt_succ_iff]

/-- The operation of the same row with other operands; those its format does not have are dropped (R61). -/
def Instr.withOperands (off len : Nat) : Instr → Instr
  | .getu8 _ => .getu8 off
  | .getu16 _ => .getu16 off
  | .getu32 _ => .getu32 off
  | .getu48 _ => .getu48 off
  | .getcap _ => .getcap off
  | .getstr _ _ => .getstr off len
  | .getraw _ _ => .getraw off len
  | i => i

section
variable (off len : Nat) (i : Instr)

@[simp] theorem mnemonic_withOperands : mnemonic (i.withOperands off len) = mnemonic i := by
  cases i <;> rfl

@[simp] theorem rowMask_withOperands : rowMask (i.withOperands off len) = rowMask i := by
  cases i <;> rfl

@[simp] theorem rowMatch_withOperands : rowMatch (i.withOperands off len) = rowMatch i := by
  cases i <;> rfl

end

/-- Operands in the ranges of R66 make any operation well formed. -/
theorem wf_withOperands {off len : Nat} (i : Instr) (hoff : off < 512) (hlen : len < 256) :
    (i.withOperands off len).wf = true := by
  cases i with
  | getu8 | getu16 | getu32 | getu48 | getcap => exact (offOk_iff off).2 hoff
  | getstr | getraw => exact Bool.and_eq_true_iff.2 ⟨(offOk_iff off).2 hoff, (lenOk_iff len).2 hlen⟩
  | _ => rfl

/-- The rows of the opcode map, one operation each (R63). -/
def operationRows : List Instr :=
  [.nop, .cksum, .ckstamp, .ckvfy, .scr, .dscr, .fbuild, .getu8 0, .getu16 0, .getu32 0, .getu48 0, .getcap 0,
    .getstr 0 0, .getraw 0 0, .seqchk, .decchip, .decrport, .decsata, .decsport, .decsmartv, .decsmartt]

theorem withOperands_mem_operationRows (i : Instr) : i.withOperands 0 0 ∈ operationRows := by
  cases i <;> simp [operationRows, Instr.withOperands]

/-- The mnemonic names the row: operations of one mnemonic differ in their operands only (R63). -/
theorem withOperands_eq_of_mnemonic_eq {i j : Instr} (h : mnemonic i = mnemonic j) :
    i.withOperands 0 0 = j.withOperands 0 0 := by
  have hnodup : (operationRows.map mnemonic).Nodup := by decide
  exact List.inj_on_of_nodup_map hnodup (withOperands_mem_operationRows i) (withOperands_mem_operationRows j) (by simpa)

theorem rowMask_eq_of_mnemonic_eq {i j : Instr} (h : mnemonic i = mnemonic j) : rowMask i = rowMask j := by
  rw [← rowMask_withOperands 0 0 i, withOperands_eq_of_mnemonic_eq h, rowMask_withOperands]

theorem rowMatch_eq_of_mnemonic_eq {i j : Instr} (h : mnemonic i = mnemonic j) : rowMatch i = rowMatch j := by
  rw [← rowMatch_withOperands 0 0 i, withOperands_eq_of_mnemonic_eq h, rowMatch_withOperands]

/-! ## What a word decodes to -/

/-- A row takes a word whose fields outside the row's format are 0 (R61, R64). -/
def OpRow.Takes (row : OpRow) (c : Word) : Prop :=
  zeroField c = 0 ∧ match row with
    | .n _ => lenField c = 0 ∧ offField c = 0
    | .o _ => lenField c = 0
    | .s _ => True

/-- The operation a row makes of a word's operand fields (R61). -/
def OpRow.operation (row : OpRow) (c : Word) : Instr :=
  match row with
  | .n i => i
  | .o mk => mk (offField c)
  | .s mk => mk (offField c) (lenField c)

/-- A word decodes where its opcode selects a row and the row takes the word, and to that row's operation (R61, R64). -/
theorem decode_eq_ok_iff (c : Word) (i : Instr) :
    decode c = .ok i ↔ ∃ row, opcodeRow (opcField c) = some row ∧ row.Takes c ∧ row.operation c = i := by
  cases hrow : opcodeRow (opcField c) with
  | none => simp [decode_none c hrow]
  | some row =>
    by_cases hz : zeroField c = 0
    · cases row with
      | n j =>
        rw [decode_n c j hrow hz]
        by_cases hfields : lenField c = 0 ∧ offField c = 0
        · simp [OpRow.Takes, OpRow.operation, hz, hfields]
        · simp [OpRow.Takes, hz, hfields, Decidable.not_and_iff_or_not.1 hfields]
      | o mk =>
        rw [decode_o c mk hrow hz]
        by_cases hlen : lenField c = 0 <;> simp [OpRow.Takes, OpRow.operation, hz, hlen]
      | s mk => simp [decode_s c mk hrow hz, OpRow.Takes, OpRow.operation, hz]
    · simp [decode_zero c row hrow hz, OpRow.Takes, hz]

/-- The operations of a row are well formed: a word's operand fields cannot leave their ranges (R66). -/
theorem wf_operation {opc : Nat} {row : OpRow} (h : opcodeRow opc = some row) (c : Word) :
    (row.operation c).wf = true := by
  obtain ⟨_, hlen, _, hoff⟩ := field_bounds c
  obtain ⟨_, hrow⟩ := opcodeRow_encode opc row h
  cases row with
  | n i => exact hrow.1
  | o mk => exact (hrow _).1.trans ((offOk_iff _).2 hoff)
  | s mk => exact (hrow _ _).1.trans (Bool.and_eq_true_iff.2 ⟨(offOk_iff _).2 hoff, (lenOk_iff _).2 hlen⟩)

/-- Settles O1: an operation's encoding is the word of its row and its operands. -/
theorem decodeOfEncode : Obligations.DecodeOfEncode := by
  unfold Obligations.DecodeOfEncode
  intro i hwf
  cases i with
  | getu8 off | getu16 off | getu32 off | getu48 off | getcap off =>
    exact decode_commandWord_o _ off _ (by decide) ((offOk_iff off).1 hwf) rfl
  | getstr off len | getraw off len =>
    obtain ⟨hoff, hlen⟩ := Bool.and_eq_true_iff.1 hwf
    exact decode_commandWord_s _ len off _ (by decide) ((lenOk_iff len).1 hlen) ((offOk_iff off).1 hoff) rfl
  | _ => exact decode_commandWord_n _ _ (by decide) rfl

/-- Settles O2: a row that takes a word keeps every field of it, the others being 0. -/
theorem encodeOfDecode : Obligations.EncodeOfDecode := by
  unfold Obligations.EncodeOfDecode
  intro c i h
  obtain ⟨row, hrow, -, rfl⟩ := (decode_eq_ok_iff c i).1 h
  exact ⟨wf_operation hrow c, Machine.encode_of_decode c _ h⟩

/-- Settles O6: each word is the encoding of the operation it stands for. -/
theorem decodeSampleWords : Obligations.DecodeSampleWords :=
  ⟨decodeOfEncode .ckstamp rfl, decodeOfEncode .dscr rfl, decodeOfEncode (.getu8 499) rfl,
    decodeOfEncode (.getstr 436 64) rfl, decodeOfEncode .decsmartt rfl⟩

/-! ## Masked words (R61) -/

/-- A well-formed operation's encoding selects the operation's own row. -/
theorem encode_and_rowMask (i : Instr) (hwf : i.wf = true) : encode i &&& rowMask i = rowMatch i := by
  cases i with
  | getu8 off => exact Laws.EncodeMatchesRow.getu8 off hwf
  | getu16 off => exact Laws.EncodeMatchesRow.getu16 off hwf
  | getu32 off => exact Laws.EncodeMatchesRow.getu32 off hwf
  | getu48 off => exact Laws.EncodeMatchesRow.getu48 off hwf
  | getcap off => exact Laws.EncodeMatchesRow.getcap off hwf
  | getstr off len => exact Laws.EncodeMatchesRow.getstr off len hwf
  | getraw off len => exact Laws.EncodeMatchesRow.getraw off len hwf
  | _ => rfl

/-- A word that matches under format O's mask is its opcode and OFF. -/
theorem commandWord_of_maskO {c m : Word} {opc : Nat} (h : c &&& 0xFFFFFE00 = m) (hopc : opc < 256)
    (hm : m.toNat = opc * 0x1000000) : commandWord opc 0 (offField c) = c := by
  have hkept := and_maskO_toNat c
  have hoff := offField_eq c
  apply BitVec.eq_of_toNat_eq
  have hword := commandWord_toNat opc 0 (offField c) hopc (by omega) (by omega)
  rw [h, hm] at hkept
  omega

/-- A word that matches under format S's mask is its opcode, LEN and OFF. -/
theorem commandWord_of_maskS {c m : Word} {opc : Nat} (h : c &&& 0xFF00FE00 = m) (hm : m.toNat = opc * 0x1000000) :
    commandWord opc (lenField c) (offField c) = c := by
  have hkept := and_maskS_toNat c
  obtain ⟨_, _, hzero, _⟩ := field_bounds c
  rw [h, hm] at hkept
  obtain ⟨hopc, hz⟩ : opcField c = opc ∧ zeroField c = 0 := by omega
  rw [← hopc, commandWord_fields c hz]

/-- A word that selects the row of `i` encodes the operation of that row with the word's own operands. -/
theorem encode_withOperands_of_match {c : Word} {i : Instr} (h : c &&& rowMask i = rowMatch i) :
    encode (i.withOperands (offField c) (lenField c)) = c := by
  cases i with
  | getu8 | getu16 | getu32 | getu48 | getcap => exact commandWord_of_maskO h (by decide) rfl
  | getstr | getraw => exact commandWord_of_maskS h rfl
  | _ => exact h.symm.trans (Laws.maskN c)

/-- Settles O3: a matching word encodes an operation of the row, and a word that decodes is its operation's encoding. -/
theorem decodeByMaskAndMatch : Obligations.DecodeByMaskAndMatch := by
  unfold Obligations.DecodeByMaskAndMatch
  intro c i
  constructor
  · intro h
    obtain ⟨_, hlen, _, hoff⟩ := field_bounds c
    have hdecode := decodeOfEncode _ (wf_withOperands i hoff hlen)
    rw [encode_withOperands_of_match h] at hdecode
    exact ⟨_, hdecode, mnemonic_withOperands ..⟩
  · rintro ⟨j, hdecode, hname⟩
    obtain ⟨hwf, rfl⟩ := encodeOfDecode c j hdecode
    rw [← rowMask_eq_of_mnemonic_eq hname, ← rowMatch_eq_of_mnemonic_eq hname, encode_and_rowMask j hwf]

end Sys2Proof

/-! PROOF. Illegal words and faults (R64, R68, R161 to R164): which words the decoder refuses, and which faults an operation
raises. -/

namespace Sys2Proof.Machine

/-! ## Illegal words (R64) -/

/-- Every opcode R64 lists is assigned (R63). -/
theorem opcodeRow_isSome_of_listed : ∀ opc ∈ opcodesN ++ opcodesO ++ opcodesS, (opcodeRow opc).isSome = true := by
  decide

theorem not_listed_of_opcodeRow_eq_none {opc : Nat} (h : opcodeRow opc = none) :
    opc ∉ opcodesN ++ opcodesO ++ opcodesS := by
  intro hlisted
  simpa [h] using opcodeRow_isSome_of_listed opc hlisted

/-- An assigned opcode stands in the list of its row's format and in no other format's (R61, R63). -/
theorem opcodeRow_format {opc : Nat} {row : OpRow} (h : opcodeRow opc = some row) :
    match row with
    | .n _ => opc ∈ opcodesN ∧ opc ∉ opcodesO
    | .o _ => opc ∈ opcodesO ∧ opc ∉ opcodesN
    | .s _ => opc ∈ opcodesS ∧ opc ∉ opcodesN ∧ opc ∉ opcodesO := by
  unfold opcodeRow at h
  split at h <;> cases h <;> decide

/-- R64's cases in terms of the decoder's fields. -/
theorem illegalWord_iff_fields (c : Word) :
    IllegalWord c ↔ opcField c ∉ opcodesN ++ opcodesO ++ opcodesS ∨ zeroField c ≠ 0 ∨
      (opcField c ∈ opcodesN ∧ (lenField c ≠ 0 ∨ offField c ≠ 0)) ∨ (opcField c ∈ opcodesO ∧ lenField c ≠ 0) := by
  simp only [IllegalWord, opcField, lenField, zeroField, offField, ne_eq, ← BitVec.toNat_inj, BitVec.toNat_zero,
    BitVec.ofNat_eq_ofNat]

/-- A word is legal where its opcode selects a row that takes it (R64). -/
theorem not_illegalWord_iff (c : Word) :
    ¬IllegalWord c ↔ ∃ row, opcodeRow (opcField c) = some row ∧ row.Takes c := by
  rw [illegalWord_iff_fields]
  cases hrow : opcodeRow (opcField c) with
  | none => exact iff_of_false (not_not_intro (.inl (not_listed_of_opcodeRow_eq_none hrow))) (by simp)
  | some row =>
    have hformat := opcodeRow_format hrow
    cases row <;> simp [OpRow.Takes, hformat]

/-- A word decodes exactly where R64 does not call it illegal. -/
theorem not_illegalWord_iff_decode (c : Word) : ¬IllegalWord c ↔ ∃ i, decode c = .ok i := by
  simp only [not_illegalWord_iff, decode_eq_ok_iff]
  constructor
  · rintro ⟨row, hrow, htakes⟩
    exact ⟨row.operation c, row, hrow, htakes, rfl⟩
  · rintro ⟨_, row, hrow, htakes, -⟩
    exact ⟨row, hrow, htakes⟩

theorem illegalWord_iff_decode_error (c : Word) : IllegalWord c ↔ ∃ e, decode c = .error e := by
  rw [← not_iff_not, not_illegalWord_iff_decode]
  cases decode c <;> simp

/-- Settles O5: both alternatives are told apart by what `decode` answers. -/
theorem decodeIsTotal : Obligations.DecodeIsTotal := by
  unfold Obligations.DecodeIsTotal
  intro c
  by_cases h : IllegalWord c
  · exact .inl ⟨h, (illegalWord_iff_decode_error c).1 h⟩
  · exact .inr ⟨h, (not_illegalWord_iff_decode c).1 h⟩

theorem command_of_decode_error {c : Word} {e : Illegal} (h : decode c = .error e) (s : State) :
    command c s = .next (takeFault .eOpc c s) := by
  simp [command, h]

/-- Fault entry in the terms of the statements (R164). -/
theorem takeFault_eq_faulted (code : FaultCode) (c : Word) (s : State) :
    takeFault code c s = Faulted s (faultNumber code) c := rfl

/-- Settles O4: the write to CMD is a command, and the decoder refuses its word. -/
theorem illegalWordsTakeOpcodeFault : Obligations.IllegalWordsTakeOpcodeFault := by
  unfold Obligations.IllegalWordsTakeOpcodeFault
  intro s c rest hflt hp hillegal
  obtain ⟨e, he⟩ := (illegalWord_iff_decode_error c).1 hillegal
  rw [step_of_commandWrite hflt hp, command_of_decode_error he]
  rfl

/-! ## The faults of an operation (R162) -/

/-- How operation `i` ends: it completes and leaves FLT alone, or it faults with a code R162 gives it. -/
inductive CompletesOrFaults (i : Instr) (s : State) : State → Prop where
  | completes {t : State} (hflt : t.status.flt = s.status.flt) : CompletesOrFaults i s t
  | faults (code : FaultCode) (hcode : faultNumber code ∈ possibleFaults i) :
      CompletesOrFaults i s (takeFault code (encode i) s)

section
variable {i : Instr}

theorem getNumber_completesOrFaults (hrange : 3 ∈ possibleFaults i) (off n : Nat) (result : Nat → BitVec 64)
    (s : State) : CompletesOrFaults i s (getNumber i off n result s) := by
  obtain ⟨-, e⟩ | ⟨-, e⟩ := getNumber_cases i off n result s _ rfl <;> rw [e]
  · exact .completes rfl
  · exact .faults .eRange hrange

theorem getBytes_completesOrFaults (hlen : 5 ∈ possibleFaults i) (hrange : 3 ∈ possibleFaults i) (off len : Nat)
    (legal : Bool) (bytes : List Byte) (s : State) : CompletesOrFaults i s (getBytes i off len legal bytes s) := by
  obtain ⟨-, e⟩ | ⟨-, -, e⟩ | ⟨-, -, e⟩ := getBytes_cases i off len legal bytes s _ rfl <;> rw [e]
  · exact .faults .eLen hlen
  · exact .completes rfl
  · exact .faults .eRange hrange

theorem decodeRecord_completesOrFaults (hrange : 3 ∈ possibleFaults i) (kind : Nat) (ok : Bool) (body : List RecWrite)
    (s : State) : CompletesOrFaults i s (decodeRecord i kind ok body s) := by
  obtain ⟨-, e⟩ | ⟨-, e⟩ := decodeRecord_cases i kind ok body s _ rfl <;> rw [e]
  · exact .completes rfl
  · exact .faults .eRange hrange

end

theorem fbuildWith_completesOrFaults (P : Params) (s : State) : CompletesOrFaults .fbuild s (fbuildWith P s) := by
  obtain ⟨-, e⟩ | ⟨-, -, e⟩ | ⟨-, -, e⟩ := fbuildWith_cases P s _ rfl <;> rw [e]
  · exact .faults .eSeqx (by decide)
  · exact .faults .ePlen (by decide)
  · exact .completes rfl

/-- Every operation ends in one of the two ways. -/
theorem exec_completesOrFaults {i : Instr} {s t : State} (h : exec i s = .next t) : CompletesOrFaults i s t := by
  cases i with
  | nop | cksum | ckstamp | ckvfy | scr | dscr | seqchk => cases h; exact .completes rfl
  | fbuild => cases h; exact fbuildWith_completesOrFaults _ s
  | getu8 | getu16 | getu32 | getu48 | getcap =>
    cases h; exact getNumber_completesOrFaults (.head _) ..
  | getstr | getraw => cases h; exact getBytes_completesOrFaults (.head _) (.tail _ (.head _)) ..
  | decchip | decrport | decsata | decsport | decsmartv =>
    cases h; exact decodeRecord_completesOrFaults (.head _) ..
  | decsmartt =>
    obtain ⟨-, rfl⟩ | ⟨-, -, rfl⟩ | ⟨-, -, rfl⟩ := execDecsmartt_cases s t h
    · exact .faults .eKind (by decide)
    · exact .completes rfl
    · exact .faults .eRange (by decide)

/-- An operation that faults makes the three writes of R164 with its own word and a code of R162, and nothing else. -/
theorem exec_faulted {i : Instr} {s t : State} (hrun : s.status.flt = false) (h : exec i s = .next t)
    (hflt : t.status.flt = true) : ∃ code ∈ possibleFaults i, t = Faulted s code (encode i) := by
  cases exec_completesOrFaults h with
  | completes hkept =>
    rw [hkept, hrun] at hflt
    cases hflt
  | faults code hcode => exact ⟨_, hcode, takeFault_eq_faulted ..⟩

/-- Settles O50: a word that decodes is its operation's own word, and one that does not is E_OPC. -/
theorem faultsArePrecise : Obligations.FaultsArePrecise := by
  unfold Obligations.FaultsArePrecise
  intro c s t hrun h hflt
  obtain ⟨i, hi, e⟩ | ⟨_, he, e⟩ := command_cases c s <;> rw [e] at h
  · obtain ⟨code, hcode, rfl⟩ := exec_faulted hrun h hflt
    exact ⟨code, by rw [encode_of_decode c i hi], .inr ⟨i, hi, hcode⟩⟩
  · cases h
    exact ⟨1, takeFault_eq_faulted .., .inl ⟨⟨_, he⟩, rfl⟩⟩

end Sys2Proof.Machine

/-! PROOF. The checksum engine (R80 to R84): a frame's checksum and its word 127 read byte by byte, what stamping does
to them, and the four operations. -/

namespace Sys2Proof.Machine

/-! ## A frame's words and its stamp, byte by byte (R7) -/

/-- The 127 words given by their bytes are the operands of `P_CK` (R81). -/
theorem checksumWords_of_frameWords {f : Frame} {ws : Vector Word 127} (h : FrameWords f ws) :
    checksumWords f = ws := by
  apply Vector.ext
  intro k hk
  rw [checksumWords_getElem f k hk, wordAt_eq f k (by omega), h k hk]

theorem frameChecksum_of_frameWords {f : Frame} {ws : Vector Word 127} (P : Params) (h : FrameWords f ws) :
    frameChecksum P f = P.checksum ws := by
  rw [frameChecksum, checksumWords_of_frameWords h]

/-- The four bytes of a stamp are word 127, the last the most significant (R7, R82). -/
theorem holdsChecksum_iff (f : Frame) (w : Word) : HoldsChecksum f w ↔ wordAt f 127 = w := by
  rw [wordAt_eq f 127 (by omega)]
  have b0 := (byteAt f 508).isLt
  have b1 := (byteAt f 509).isLt
  have b2 := (byteAt f 510).isLt
  have b3 := (byteAt f 511).isLt
  have hw := w.isLt
  simp only [HoldsChecksum, ← BitVec.toNat_inj, toNat_append_byte, BitVec.extractLsb'_toNat,
    Nat.shiftRight_eq_div_pow, Nat.reduceMul, Nat.reduceAdd, Nat.reducePow]
  omega

/-! ## Stamping (R82, R84) -/

/-- Writing the same bytes twice is writing them once. -/
theorem putBytes_putBytes_same {n : Nat} (v : Vector Byte n) (o : Nat) (bs : List Byte) :
    putBytes (putBytes v o bs) o bs = putBytes v o bs := by
  apply eq_of_byteAt_eq
  intro i _
  simp only [byteAt_putBytes]
  split <;> rfl

/-- A stamped frame carries the checksum it was stamped with. -/
theorem wordAt_stampFrame (P : Params) (f : Frame) : wordAt (stampFrame P f) 127 = frameChecksum P f :=
  wordAt_putWord_same f 127 _ (by omega)

/-- The stamp is none of the words it is computed from (R84 (d)). -/
theorem frameChecksum_stampFrame (P : Params) (f : Frame) : frameChecksum P (stampFrame P f) = frameChecksum P f :=
  frameChecksum_putWord127 P f _

theorem stampFrame_stampFrame (P : Params) (f : Frame) : stampFrame P (stampFrame P f) = stampFrame P f := by
  rw [stampFrame, frameChecksum_stampFrame]
  exact putBytes_putBytes_same f _ _

/-- Stamping leaves the bytes before word 127. -/
theorem byteAt_stampFrame_of_lt (P : Params) (f : Frame) (i : Nat) (h : i < 508) :
    byteAt (stampFrame P f) i = byteAt f i :=
  byteAt_putBytes_of_out _ _ _ i (.inl h)

/-- Past FB the window shows PB, SR and REC only (R41). -/
theorem memByte_congr_past_fb (s t : State) (hpb : t.pb = s.pb) (hsr : t.sr = s.sr) (hrec : t.record = s.record)
    (a : Nat) (ha : 512 ≤ a) : memByte t a = memByte s a := by
  simp only [memByte, Nat.not_lt.2 ha, if_false, hpb, hsr, hrec]

/-! ## The operations -/

theorem exec_nop (s : State) : exec .nop s = .next s := rfl

theorem exec_cksum (s : State) : exec .cksum s = .next (cksumWith Config.params s) := rfl

theorem exec_ckstamp (s : State) : exec .ckstamp s = .next (ckstampWith Config.params s) := rfl

theorem exec_ckvfy (s : State) : exec .ckvfy s = .next (ckvfyWith Config.params s) := rfl

@[simp] theorem ckstampWith_fb (P : Params) (s : State) : (ckstampWith P s).fb = stampFrame P s.fb := rfl

/-- CKSTAMP changes no byte of memory but those of word 127 (R82). -/
theorem memByte_ckstampWith (P : Params) (s : State) (a : Nat) (ha : a < 508 ∨ 512 ≤ a) :
    memByte (ckstampWith P s) a = memByte s a := by
  obtain hbefore | hpast := ha
  · rw [memByte_fb _ a (by omega), memByte_fb s a (by omega), ckstampWith_fb, byteAt_stampFrame_of_lt P s.fb a hbefore]
  · exact memByte_congr_past_fb s (ckstampWith P s) rfl rfl rfl a hpast

/-- CKSTAMP again recomputes the same checksum and stores what is there (R84 (c)). -/
theorem ckstampWith_ckstampWith (P : Params) (s : State) : ckstampWith P (ckstampWith P s) = ckstampWith P s := by
  rw [ckstampWith, ckstampWith_fb, stampFrame_stampFrame, frameChecksum_stampFrame]
  rfl

/-- CKVFY of a frame whose word 127 is its checksum finds a match (R83). -/
theorem ckvfyWith_of_match {P : Params} {s : State} (h : frameChecksum P s.fb = wordAt s.fb 127) :
    ckvfyWith P s = writeStatus (checksumVerdict true s.status) (writeCkres (frameChecksum P s.fb) s) := by
  rw [ckvfyWith, decide_eq_true h]

/-- CKVFY of any other frame finds a mismatch (R83). -/
theorem ckvfyWith_of_mismatch {P : Params} {s : State} (h : frameChecksum P s.fb ≠ wordAt s.fb 127) :
    ckvfyWith P s = writeStatus (checksumVerdict false s.status) (writeCkres (frameChecksum P s.fb) s) := by
  rw [ckvfyWith, decide_eq_false h]

/-! ## The statements -/

/-- Settles O19: the operands of `P_CK` are the words the statement gives byte by byte. -/
theorem cksumResult : Obligations.CksumResult := by
  unfold Obligations.CksumResult
  refine ⟨decodeOfEncode .cksum rfl, fun s ws _ hws => ?_⟩
  rw [exec_cksum, cksumWith, frameChecksum_of_frameWords _ hws]
  rfl

/-- Settles O20: word 127 of the stamped frame is the checksum, and `writeFb` clears the flags. -/
theorem ckstampResult : Obligations.CkstampResult := by
  unfold Obligations.CkstampResult
  refine ⟨decodeOfEncode .ckstamp rfl, fun s ws _ hws => ?_⟩
  rw [← frameChecksum_of_frameWords _ hws]
  exact ⟨_, exec_ckstamp s, (holdsChecksum_iff ..).2 (wordAt_stampFrame _ s.fb), memByte_ckstampWith _ s, rfl⟩

/-- Settles O21: the verdict compares the checksum with word 127, which holds `w`. -/
theorem ckvfyResult : Obligations.CkvfyResult := by
  unfold Obligations.CkvfyResult
  refine ⟨decodeOfEncode .ckvfy rfl, fun s ws w _ hws hw => ?_⟩
  rw [← frameChecksum_of_frameWords _ hws, ← (holdsChecksum_iff ..).1 hw, exec_ckvfy]
  constructor
  · intro hmatch
    rw [ckvfyWith_of_match hmatch, hmatch]
    rfl
  · intro hmismatch
    rw [ckvfyWith_of_mismatch hmismatch]
    rfl

/-- Settles O22: `P_CK` takes no byte of word 127. -/
theorem cksumIgnoresWord127 : Obligations.CksumIgnoresWord127 := by
  unfold Obligations.CksumIgnoresWord127
  intro s s' t t' hagree h h'
  rw [exec_cksum, Host.Outcome.next.injEq] at h h'
  subst h h'
  exact frameChecksum_congr _ _ _ hagree

/-- Settles O23: a stamped frame's word 127 is its checksum. -/
theorem stampedFrameVerifies : Obligations.StampedFrameVerifies := by
  unfold Obligations.StampedFrameVerifies
  intro s t _ h
  rw [exec_ckstamp, Host.Outcome.next.injEq] at h
  subst h
  have hmatch : frameChecksum Config.params (stampFrame Config.params s.fb) =
      wordAt (stampFrame Config.params s.fb) 127 := by
    rw [frameChecksum_stampFrame, wordAt_stampFrame]
  rw [exec_ckvfy, ckvfyWith_of_match hmatch]
  exact ⟨_, rfl, rfl, rfl, rfl⟩

/-- Settles O24: CKSTAMP is idempotent at any parameters. -/
theorem stampIsIdempotent : Obligations.StampIsIdempotent := by
  unfold Obligations.StampIsIdempotent
  intro s t _ h
  rw [exec_ckstamp, Host.Outcome.next.injEq] at h
  rw [← h, exec_ckstamp, ckstampWith_ckstampWith]

/-- Settles O18: the all-zero word encodes NOP. -/
theorem nopChangesNothing : Obligations.NopChangesNothing := by
  unfold Obligations.NopChangesNothing
  exact ⟨decodeOfEncode .nop rfl, fun s _ => exec_nop s⟩

end Sys2Proof.Machine

/-! PROOF. The codec's operations (R90, R91), and a built frame on its way through them (R92 (c)): DSCR after SCR gives back
the state FBUILD left, whose stamp CKVFY accepts. -/

namespace Sys2Proof.Machine

/-- Settles O25: each operation is one write to FB, which clears the flags. -/
theorem codecResult : Obligations.CodecResult := by
  unfold Obligations.CodecResult
  exact ⟨decodeOfEncode .scr rfl, decodeOfEncode .dscr rfl, fun s _ => ⟨exec_scr s, exec_dscr s⟩⟩

/-- DSCR after SCR is a write to FB of what it held before (R92 (a)): only the verification flags can differ. -/
theorem dscrWith_scrWith (P : Params) (s : State) : dscrWith P (scrWith P s) = writeFb s.fb s := by
  rw [dscrWith, scrWith_fb, P.descramble_scramble]
  rfl

/-- FBUILD leaves the verification flags clear, so a write to FB of the frame it built changes nothing (R25). -/
theorem writeFb_fb_buildWith (P : Params) (s : State) : writeFb (buildWith P s).fb (buildWith P s) = buildWith P s := rfl

/-- DSCR after SCR after FBUILD gives back the whole state FBUILD left. -/
theorem dscrWith_scrWith_buildWith (P : Params) (s : State) :
    dscrWith P (scrWith P (buildWith P s)) = buildWith P s := by
  rw [dscrWith_scrWith, writeFb_fb_buildWith]

/-- The frame FBUILD leaves is a stamped one (R100). -/
theorem buildWith_fb (P : Params) (s : State) :
    (buildWith P s).fb = stampFrame P (unstampedFrame s.magic s.seq (bytesAt s.pb 0 s.plen.toNat)) := rfl

/-- A built frame's word 127 is its checksum. -/
theorem frameChecksum_buildWith (P : Params) (s : State) :
    frameChecksum P (buildWith P s).fb = wordAt (buildWith P s).fb 127 := by
  rw [buildWith_fb, frameChecksum_stampFrame, wordAt_stampFrame]

/-- Settles O27: the codec hands CKVFY the state FBUILD left, and its stamp matches. -/
theorem builtFrameSurvivesCodec : Obligations.BuiltFrameSurvivesCodec := by
  unfold Obligations.BuiltFrameSurvivesCodec
  intro s hflt hseqx hplen
  refine ⟨_, _, _, _, exec_fbuild_of_builds s hseqx hplen, exec_scr _, exec_dscr _, exec_ckvfy _, ?_⟩
  rw [dscrWith_scrWith_buildWith, ckvfyWith_of_match (frameChecksum_buildWith Config.params s)]
  exact ⟨rfl, rfl, rfl, hflt⟩

end Sys2Proof.Machine

/-! PROOF. The payload parser's numbers (R101 to R106): a numeric extraction is its command words, its range check and the
value of its bytes, so one lemma serves all five operations. -/

namespace Sys2Proof.Machine

/-! ## One extraction -/

theorem getNumber_of_inRange (i : Instr) (result : Nat → BitVec 64) {s : State} {off n : Nat}
    (h : s.roff.toNat + off + n ≤ 512) :
    getNumber i off n result s = writeXr (result (natAt s.fb (s.roff.toNat + off) n)) s := by
  rw [getNumber, if_pos ((inRange_iff s off n).2 h)]
  rfl

theorem getNumber_of_outOfRange (i : Instr) (result : Nat → BitVec 64) {s : State} {off n : Nat}
    (h : 512 < s.roff.toNat + off + n) : getNumber i off n result s = Faulted s 3 (encode i) := by
  rw [getNumber, (inRange_eq_false_iff s off n).2 h]
  exact takeFault_eq_faulted ..

/-- What each numeric operation has to say for itself: its operand is OFF, its encodings are `word + OFF`, its arm is
`getNumber`, and the result of an `n`-byte value inside FB is `value`. -/
theorem extractsNumber_of_getNumber {mk : Nat → Instr} {word n : Nat} {result : Nat → BitVec 64}
    {value : Frame → Nat → BitVec 64} (hwf : ∀ off, (mk off).wf = offOk off)
    (hword : ∀ off, encode (mk off) = BitVec.ofNat 32 (word + off))
    (hexec : ∀ off s, exec (mk off) s = .next (getNumber (mk off) off n result s))
    (hvalue : ∀ (f : Frame) (a : Nat), a + n ≤ 512 → result (natAt f a n) = value f a) :
    ExtractsNumber mk word n value := by
  intro off hoff
  rw [← hword]
  refine ⟨?decode, fun s _ => ⟨fun hin => ?inside, fun hout => ?outside⟩⟩
  case decode => exact decodeOfEncode _ ((hwf off).trans (decide_eq_true hoff))
  case inside =>
    rw [hexec, getNumber_of_inRange _ _ hin, hvalue _ _ hin]
    rfl
  case outside => rw [hexec, getNumber_of_outOfRange _ _ hout]

/-! ## The operations -/

/-- Settles O31: a one-byte value is its byte. -/
theorem getu8Result : Obligations.Getu8Result := by
  unfold Obligations.Getu8Result
  refine extractsNumber_of_getNumber (fun _ => rfl) (fun _ => rfl) (fun _ _ => rfl) fun f a h => ?_
  rw [natAt_one f a h]
  exact BitVec.ofNat_toNat ..

/-- Settles O32: a two-byte value is its bytes appended, at any address. -/
theorem getu16Result : Obligations.Getu16Result := by
  unfold Obligations.Getu16Result
  refine extractsNumber_of_getNumber (fun _ => rfl) (fun _ => rfl) (fun _ _ => rfl) fun f a h => ?_
  rw [natAt_two f a h]
  exact BitVec.ofNat_toNat ..

/-- Settles O33: a four-byte value is its bytes appended, at any address. -/
theorem getu32Result : Obligations.Getu32Result := by
  unfold Obligations.Getu32Result
  refine extractsNumber_of_getNumber (fun _ => rfl) (fun _ => rfl) (fun _ _ => rfl) fun f a h => ?_
  rw [natAt_four f a h]
  exact BitVec.ofNat_toNat ..

/-- `LE(a, 6)` byte by byte (R105): two bytes, and the four of a `LE(a + 2, 4)` above them. -/
theorem natAt_six {n : Nat} (v : Vector Byte n) (a : Nat) (h : a + 6 ≤ n) :
    natAt v a 6 = (byteAt v (a + 5) ++ byteAt v (a + 4) ++ byteAt v (a + 3) ++ byteAt v (a + 2) ++ byteAt v (a + 1)
      ++ byteAt v a).toNat := by
  rw [natAt_succ _ _ _ (by omega), natAt_succ _ _ _ (by omega), natAt_four _ _ (by omega)]
  simp only [toNat_append_byte, Nat.add_assoc, Nat.reduceAdd]
  omega

/-- Settles O34: a six-byte value is its bytes appended, at any address. -/
theorem getu48Result : Obligations.Getu48Result := by
  unfold Obligations.Getu48Result
  refine extractsNumber_of_getNumber (fun _ => rfl) (fun _ => rfl) (fun _ _ => rfl) fun f a h => ?_
  rw [natAt_six f a h]
  exact BitVec.ofNat_toNat ..

/-- Settles O35: the count is a four-byte value, and its scaling to bytes fits 64 bits. -/
theorem getcapResult : Obligations.GetcapResult := by
  unfold Obligations.GetcapResult
  refine ⟨extractsNumber_of_getNumber (fun _ => rfl) (fun _ => rfl) (fun _ _ => rfl) fun f a h => ?value,
    fun u => ?exact⟩
  case value => rw [natAt_four f a h, capacityBytes_eq]
  case exact =>
    rw [← capacityBytes_eq]
    exact capacityBytes_toNat _ u.isLt

end Sys2Proof.Machine

/-! PROOF. The payload parser's strings (R107, R108): the three ways a string extraction ends, and what SR holds after one
that completes. -/

namespace Sys2Proof.Machine

/-! ## One extraction -/

section
variable (i : Instr) {off len : Nat} (bytes : List Byte) (s : State)

/-- An illegal LEN is E_LEN, before the range is looked at (R107, R108). -/
theorem getBytes_of_illegal : getBytes i off len false bytes s = Faulted s 5 (encode i) :=
  takeFault_eq_faulted .eLen _ s

theorem getBytes_of_outOfRange (h : 512 < s.roff.toNat + off + len) :
    getBytes i off len true bytes s = Faulted s 3 (encode i) := by
  rw [getBytes, (inRange_eq_false_iff s off len).2 h]
  exact takeFault_eq_faulted ..

theorem getBytes_of_inRange (h : s.roff.toNat + off + len ≤ 512) :
    getBytes i off len true bytes s = writeSr bytes s := by
  rw [getBytes, (inRange_iff s off len).2 h]
  rfl

end

/-! ## SR after an extraction (R24) -/

/-- SR's bytes are those of the string, and zeros after them. -/
theorem byteAt_writeSr (bs : List Byte) (s : State) (j : Nat) (hj : j < 64) :
    byteAt (writeSr bs s).sr j = bs[j]?.getD 0 := by
  rw [writeSr_sr]
  by_cases h : j < bs.length
  · rw [byteAt_putBytes_of_in _ _ _ _ (by omega) hj, Nat.sub_zero]
  · rw [byteAt_putBytes_of_out _ _ _ _ (by omega), byteAt_zeroBytes, List.getElem?_eq_none (Nat.le_of_not_lt h),
      Option.getD_none]

/-- A string in frame order leaves SR the field (R108). -/
theorem copiedText_writeSr {s : State} {off len : Nat} (hlen : len ≤ 64) :
    CopiedText (writeSr (rawField s off len) s).sr 0 s.fb (s.roff.toNat + off) len := by
  intro j hj
  rw [Nat.zero_add, byteAt_writeSr _ s j (by omega), rawField_getD s off len j hj]
  rfl

/-- A swapped string leaves SR the field swapped in pairs (R107). -/
theorem swappedText_writeSr {s : State} {off len : Nat} (hlen : len ≤ 64) (hin : s.roff.toNat + off + len ≤ 512) :
    SwappedText (writeSr (strField s off len) s).sr 0 s.fb (s.roff.toNat + off) len := by
  intro j hj
  rw [Nat.zero_add, byteAt_writeSr _ s _ (by omega), byteAt_writeSr _ s _ (by omega)]
  exact strField_getD s off len j hin hj

/-- Outside SR's part of the window nothing moves (R41). -/
theorem memByte_writeSr (bs : List Byte) (s : State) (a : Nat) (ha : a < 0x440 ∨ 0x480 ≤ a) :
    memByte (writeSr bs s) a = memByte s a := by
  have hout : ¬(0x440 ≤ a ∧ a < 0x480) := by omega
  simp only [memByte, hout, if_false, writeSr_fb, writeSr_pb, writeSr_record]

/-- A completed string extraction writes SR, with zeros after the string, and SLEN, and nothing else (R24). -/
theorem writeSr_frame {bs : List Byte} {len : Nat} (hbs : bs.length = len) (s : State) :
    (∀ i, len ≤ i → i < 64 → byteAt (writeSr bs s).sr i = 0) ∧
    (∀ a, a < 0x440 ∨ 0x480 ≤ a → memByte (writeSr bs s) a = memByte s a) ∧
    writeSr bs s = { s with sr := (writeSr bs s).sr, slen := BitVec.ofNat 32 len } := by
  subst hbs
  refine ⟨fun i hi h64 => ?_, memByte_writeSr bs s, rfl⟩
  rw [byteAt_writeSr bs s i h64, List.getElem?_eq_none hi, Option.getD_none]

/-! ## The operations -/

/-- How a string extraction ends (R107, R108): E_LEN, else E_RANGE, else SR takes a string in the relation `Text` to the frame
from `ROFF + OFF` on, with zeros after it, SLEN its length, and nothing else changes. -/
structure ExtractsString (i : Instr) (off len : Nat) (legal : Prop) (Text : Vector Byte 64 → Frame → Nat → Prop)
    (s : State) : Prop where
  illegal : ¬legal → exec i s = .next (Faulted s 5 (encode i))
  outside : legal → 512 < s.roff.toNat + off + len → exec i s = .next (Faulted s 3 (encode i))
  inside : legal → s.roff.toNat + off + len ≤ 512 →
    ∃ t, exec i s = .next t ∧ Text t.sr s.fb (s.roff.toNat + off) ∧ (∀ j, len ≤ j → j < 64 → byteAt t.sr j = 0) ∧
      (∀ a, a < 0x440 ∨ 0x480 ≤ a → memByte t a = memByte s a) ∧
      t = { s with sr := t.sr, slen := BitVec.ofNat 32 len }

/-- What each string operation has to say for itself: its arm is `getBytes`, and inside FB its string has LEN bytes and
stands in the relation `Text` to the frame. -/
theorem extractsString_of_getBytes {i : Instr} {off len : Nat} {legal : Prop} [Decidable legal] {bytes : List Byte}
    {Text : Vector Byte 64 → Frame → Nat → Prop} {s : State}
    (hexec : exec i s = .next (getBytes i off len (decide legal) bytes s))
    (hlen : s.roff.toNat + off + len ≤ 512 → bytes.length = len)
    (htext : legal → s.roff.toNat + off + len ≤ 512 → Text (writeSr bytes s).sr s.fb (s.roff.toNat + off)) :
    ExtractsString i off len legal Text s where
  illegal hbad := by rw [hexec, decide_eq_false hbad, getBytes_of_illegal]
  outside hlegal hout := by rw [hexec, decide_eq_true hlegal, getBytes_of_outOfRange i bytes s hout]
  inside hlegal hin := by
    rw [hexec, decide_eq_true hlegal, getBytes_of_inRange i bytes s hin]
    exact ⟨_, rfl, htext hlegal hin, writeSr_frame (hlen hin) s⟩

/-- Settles O36: the string is the field swapped in pairs. -/
theorem getstrResult : Obligations.GetstrResult := by
  unfold Obligations.GetstrResult
  intro off len hoff hlen
  have hwf := wf_withOperands (.getstr off len) (Nat.lt_succ_of_le hoff) (Nat.lt_succ_of_le hlen)
  have extracts (s : State) : ExtractsString (.getstr off len) off len (2 ≤ len ∧ len ≤ 64 ∧ len % 2 = 0)
      (fun r f a => SwappedText r 0 f a len) s :=
    extractsString_of_getBytes rfl (strField_length s off len) fun ⟨_, h64, _⟩ hin => swappedText_writeSr h64 hin
  exact ⟨decodeOfEncode (.getstr off len) hwf, fun s _ =>
    ⟨fun hbad => (extracts s).illegal (by omega), fun h2 h64 heven => (extracts s).outside ⟨h2, h64, heven⟩,
      fun h2 h64 heven => (extracts s).inside ⟨h2, h64, heven⟩⟩⟩

/-- Settles O37: the string is the field in frame order. -/
theorem getrawResult : Obligations.GetrawResult := by
  unfold Obligations.GetrawResult
  intro off len hoff hlen
  have hwf := wf_withOperands (.getraw off len) (Nat.lt_succ_of_le hoff) (Nat.lt_succ_of_le hlen)
  have extracts (s : State) : ExtractsString (.getraw off len) off len (1 ≤ len ∧ len ≤ 64)
      (fun r f a => CopiedText r 0 f a len) s :=
    extractsString_of_getBytes rfl (rawField_length s off len) fun ⟨_, h64⟩ _ => copiedText_writeSr h64
  exact ⟨decodeOfEncode (.getraw off len) hwf, fun s _ =>
    ⟨fun hbad => (extracts s).illegal (by omega), fun h1 h64 => (extracts s).outside ⟨h1, h64⟩,
      fun h1 h64 => (extracts s).inside ⟨h1, h64⟩⟩⟩

end Sys2Proof.Machine

/-! PROOF. The frame builder (R100, R110): its two faults, the frame it builds byte by byte, and why bytes 500 to 503 of a
payload leave no trace (90_conflicts.md C1). -/

namespace Sys2Proof.Machine

/-! ## The frame before its stamp -/

/-- Byte `j` of a word just written (R7). -/
theorem byteAt_putWord_same (f : Frame) (k j : Nat) (w : Word) (hk : k < 128) (hj : j < 4) :
    byteAt (putWord f k w) (4 * k + j) = w.extractLsb' (8 * j) 8 :=
  byteAt_putBytes_value f (4 * k) 4 j w hj (by omega)

theorem byteAt_putWord_of_out (f : Frame) (k i : Nat) (w : Word) (h : i < 4 * k ∨ 4 * k + 4 ≤ i) :
    byteAt (putWord f k w) i = byteAt f i :=
  byteAt_putBytes_of_out f (4 * k) _ i (by rwa [bytesOfNat_length])

section
variable (magic seq : Word)

/-- The payload starts at byte 8. -/
theorem byteAt_unstampedFrame_of_lt (payload : List Byte) (i : Nat) (h : i < 8) :
    byteAt (unstampedFrame magic seq payload) i = byteAt (putWord (putWord (zeroBytes 512) 0 magic) 1 seq) i :=
  byteAt_putBytes_of_out _ _ _ _ (.inl h)

theorem byteAt_unstampedFrame_magic (payload : List Byte) (j : Nat) (hj : j < 4) :
    byteAt (unstampedFrame magic seq payload) j = magic.extractLsb' (8 * j) 8 := by
  rw [byteAt_unstampedFrame_of_lt _ _ _ _ (by omega), byteAt_putWord_of_out _ _ _ _ (.inl hj)]
  simpa using byteAt_putWord_same (zeroBytes 512) 0 j magic (by decide) hj

theorem byteAt_unstampedFrame_seq (payload : List Byte) (j : Nat) (hj : j < 4) :
    byteAt (unstampedFrame magic seq payload) (4 + j) = seq.extractLsb' (8 * j) 8 := by
  rw [byteAt_unstampedFrame_of_lt _ _ _ _ (by omega)]
  exact byteAt_putWord_same _ 1 j seq (by decide) hj

/-- The payload is the first `n` bytes of the buffer, padded with zeros (R100). -/
theorem byteAt_unstampedFrame_payload (pb : Vector Byte 504) (n j : Nat) (hn : n ≤ 504) (hj : j < 504) :
    byteAt (unstampedFrame magic seq (bytesAt pb 0 n)) (8 + j) = if j < n then byteAt pb j else 0 := by
  have hlen : (bytesAt pb 0 n).length = n := bytesAt_length pb 0 n (by omega)
  unfold unstampedFrame
  split
  · rw [byteAt_putBytes_of_in _ _ _ _ (by omega) (by omega), Nat.add_sub_cancel_left, bytesAt_getElem?,
      if_pos (by assumption), Nat.zero_add]
    rfl
  · rw [byteAt_putBytes_of_out _ _ _ _ (by omega), byteAt_putWord_of_out _ _ _ _ (by omega),
      byteAt_putWord_of_out _ _ _ _ (by omega), byteAt_zeroBytes]

end

/-! ## FBUILD -/

theorem exec_fbuild (s : State) : exec .fbuild s = .next (fbuildWith Config.params s) := rfl

/-- With the sequence numbers used up FBUILD is E_SEQX, whatever PLEN holds (R100). -/
theorem fbuildWith_of_exhausted (P : Params) {s : State} (hseqx : s.status.seqx = true) :
    fbuildWith P s = Faulted s 4 (encode .fbuild) := by
  rw [fbuildWith, if_pos hseqx]
  exact takeFault_eq_faulted ..

/-- A payload longer than PB is E_PLEN (R100). -/
theorem fbuildWith_of_tooLong (P : Params) {s : State} (hseqx : s.status.seqx = false) (hplen : 504 < s.plen.toNat) :
    fbuildWith P s = Faulted s 2 (encode .fbuild) := by
  rw [fbuildWith, hseqx, if_neg Bool.false_ne_true, if_pos hplen]
  exact takeFault_eq_faulted ..

/-- CKRES takes the checksum of the frame FB holds afterwards. -/
theorem buildWith_ckres (P : Params) (s : State) :
    (buildWith P s).ckres = frameChecksum P (buildWith P s).fb := by
  rw [buildWith_fb, frameChecksum_stampFrame]
  rfl

/-- Below the stamp FB holds the frame as it was put together. -/
theorem byteAt_buildWith_of_lt (P : Params) (s : State) (i : Nat) (h : i < 508) :
    byteAt (buildWith P s).fb i = byteAt (unstampedFrame s.magic s.seq (bytesAt s.pb 0 s.plen.toNat)) i := by
  rw [buildWith_fb, byteAt_stampFrame_of_lt _ _ _ h]

/-- The registers a build writes; the others are as they were. -/
theorem buildWith_eq (P : Params) (s : State) :
    buildWith P s =
      { s with
        fb := (buildWith P s).fb
        ckres := frameChecksum P (buildWith P s).fb
        lastSeq := s.seq
        seq := if s.seq = 0xFFFFFFFF then 0 else s.seq + 1
        status := { ckok := false, ckbad := false, seqok := false, seqbad := false,
                    seqx := s.status.seqx || decide (s.seq = 0xFFFFFFFF), lsv := true, flt := s.status.flt } } := by
  rw [← buildWith_ckres, ← buildWith_seq P s]
  rfl

theorem frameWords_checksumWords (f : Frame) : FrameWords f (checksumWords f) := by
  intro k hk
  rw [checksumWords_getElem f k hk, wordAt_eq f k (by omega)]

/-- Settles O28: the tests in their order, then the built frame byte by byte. -/
theorem fbuildResult : Obligations.FbuildResult := by
  unfold Obligations.FbuildResult
  refine ⟨decodeOfEncode .fbuild rfl, fun s hflt => ⟨fun hseqx => ?exhausted, fun hseqx hplen => ?tooLong,
    fun hseqx hplen => ?builds⟩⟩
  case exhausted =>
    rw [exec_fbuild, fbuildWith_of_exhausted _ hseqx]
    rfl
  case tooLong =>
    rw [exec_fbuild, fbuildWith_of_tooLong _ hseqx hplen]
    rfl
  case builds =>
    refine ⟨_, checksumWords (buildWith Config.params s).fb, exec_fbuild_of_builds s hseqx hplen,
      frameWords_checksumWords _, ?checksum, fun j hj => ?magic, fun j hj => ?seq, fun j hj => ?payload,
      memByte_congr_past_fb _ _ rfl rfl rfl, ?registers⟩
    case checksum => exact (holdsChecksum_iff ..).2 (frameChecksum_buildWith _ s).symm
    case magic => rw [byteAt_buildWith_of_lt _ _ _ (by omega), byteAt_unstampedFrame_magic _ _ _ j hj]
    case seq => rw [byteAt_buildWith_of_lt _ _ _ (by omega), byteAt_unstampedFrame_seq _ _ _ j hj]
    case payload =>
      rw [byteAt_buildWith_of_lt _ _ _ (by omega), byteAt_unstampedFrame_payload _ _ _ _ j hplen (by omega)]
    case registers =>
      have hregs := buildWith_eq Config.params s
      rw [hseqx, hflt, Bool.false_or] at hregs
      exact hregs

/-! ## Payloads past 500 bytes -/

/-- The stamp overwrites word 127, so a stamped frame depends on the bytes below it only (R82). -/
theorem stampFrame_congr (P : Params) {f g : Frame} (h : ∀ i < 508, byteAt f i = byteAt g i) :
    stampFrame P f = stampFrame P g := by
  apply eq_of_byteAt_eq
  intro i hi
  obtain hbelow | hstamp := Nat.lt_or_ge i 508
  · rw [byteAt_stampFrame_of_lt P f i hbelow, byteAt_stampFrame_of_lt P g i hbelow, h i hbelow]
  · obtain ⟨j, rfl⟩ := Nat.exists_eq_add_of_le hstamp
    rw [stampFrame, stampFrame, frameChecksum_congr P f g h, byteAt_putWord_same f 127 j _ (by decide) (by omega),
      byteAt_putWord_same g 127 j _ (by decide) (by omega)]

/-- A payload of 500 to 504 bytes agrees with its first 500 below the stamp. -/
theorem byteAt_unstampedFrame_past500 (magic seq : Word) (pb : Vector Byte 504) {n : Nat} (h500 : 500 ≤ n)
    (h504 : n ≤ 504) (i : Nat) (hi : i < 508) :
    byteAt (unstampedFrame magic seq (bytesAt pb 0 n)) i = byteAt (unstampedFrame magic seq (bytesAt pb 0 500)) i := by
  obtain hhead | hpayload := Nat.lt_or_ge i 8
  · rw [byteAt_unstampedFrame_of_lt _ _ _ _ hhead, byteAt_unstampedFrame_of_lt _ _ _ _ hhead]
  · obtain ⟨j, rfl⟩ := Nat.exists_eq_add_of_le hpayload
    rw [byteAt_unstampedFrame_payload _ _ _ _ j h504 (by omega),
      byteAt_unstampedFrame_payload _ _ _ _ j (by decide) (by omega), if_pos (by omega), if_pos (by omega)]

/-- Settles O29: the two frames agree below the stamp, and CKRES is the built frame's checksum. -/
theorem fbuildIgnoresPayloadPast500 : Obligations.FbuildIgnoresPayloadPast500 := by
  unfold Obligations.FbuildIgnoresPayloadPast500
  intro s t u _ hseqx h500 h504 ht hu
  rw [exec_fbuild_of_builds s hseqx h504, Host.Outcome.next.injEq] at ht
  rw [exec_fbuild_of_builds { s with plen := 500 } hseqx (show (500 : Word).toNat ≤ 504 by decide),
    Host.Outcome.next.injEq] at hu
  subst ht hu
  have hfb : (buildWith Config.params s).fb = (buildWith Config.params { s with plen := 500 }).fb :=
    stampFrame_congr _ (byteAt_unstampedFrame_past500 _ _ _ (Nat.le_of_lt h500) h504)
  exact ⟨hfb, by rw [buildWith_ckres, buildWith_ckres, hfb]⟩

end Sys2Proof.Machine

/-! PROOF. The range faults of the five zeroing decoders (R101, R120, R164): a plan that does not fit is E_RANGE. -/

namespace Sys2Proof.Machine

/-- A zeroing decoder whose range check fails takes E_RANGE with its own word and leaves REC (R120). -/
theorem exec_of_plan_not_fits {i : Instr} {op : Params → State → State} (hi : (i, op) ∈ zeroingDecoders) {s : State}
    {p : DecoderPlan} (hp : decoderPlan Config.params s i = some p) (hfits : p.fits = false) :
    exec i s = .next (Faulted s 3 (encode i)) := by
  obtain ⟨hexec, plans⟩ := exists_plan_of_mem_zeroingDecoders i op hi
  obtain ⟨p', hp', hop⟩ := plans Config.params s
  obtain rfl : p = p' := Option.some.inj (hp.symm.trans hp')
  rw [hexec, hop, hfits]
  rfl

theorem allInRange_eq_false {s : State} {fields : List Field} (h : ¬FieldsInFrame s fields) :
    allInRange s fields = false := by
  rwa [← Bool.not_eq_true, allInRange_iff]

/-- Settles O47: the range check of each decoder's plan is the statement's premise. -/
theorem decoderRangeFaults : Obligations.DecoderRangeFaults := by
  unfold Obligations.DecoderRangeFaults
  intro s _
  refine ⟨fun h => ?chip, fun h => ?rport, fun h => ?sata, fun h => ?sport, fun h => ?smart⟩
  case chip => exact exec_of_plan_not_fits (op := decchipWith) (by simp [zeroingDecoders]) rfl (allInRange_eq_false h)
  case rport => exact exec_of_plan_not_fits (op := decrportWith) (by simp [zeroingDecoders]) rfl (allInRange_eq_false h)
  case sata => exact exec_of_plan_not_fits (op := decsataWith) (by simp [zeroingDecoders]) rfl (allInRange_eq_false h)
  case sport => exact exec_of_plan_not_fits (op := decsportWith) (by simp [zeroingDecoders]) rfl (allInRange_eq_false h)
  case smart =>
    exact exec_of_plan_not_fits (op := decsmartvWith) (by simp [zeroingDecoders]) rfl
      ((inRange_eq_false_iff s 0 382).2 h)

end Sys2Proof.Machine

/-! PROOF. SEQCHK (R121), DECSMARTT's merge (R138), and what the two SMART pages make of one slot together (R139). -/

namespace Sys2Proof.Machine

/-! ## SEQCHK (R121) -/

theorem exec_seqchk (s : State) :
    exec .seqchk s =
      .next (writeStatus (sequenceVerdict (s.status.lsv && decide (wordAt s.fb 1 = s.lastSeq)) s.status) s) := rfl

/-- Settles O38: word 1 of FB is its four bytes, and the verdict is the conjunction of LSV with the comparison. -/
theorem seqchkResult : Obligations.SeqchkResult := by
  unfold Obligations.SeqchkResult
  refine ⟨decodeOfEncode .seqchk rfl, fun s w _ hw => ?_⟩
  have hword : wordAt s.fb 1 = w := (wordAt_eq s.fb 1 (by decide)).trans hw.symm
  rw [exec_seqchk, hword]
  constructor
  · rintro ⟨hlsv, hmatch⟩
    have verdict : (s.status.lsv && decide (w = s.lastSeq)) = true := by rw [hlsv, decide_eq_true hmatch, Bool.and_true]
    rw [verdict]
    rfl
  · intro hbad
    have verdict : (s.status.lsv && decide (w = s.lastSeq)) = false :=
      Bool.and_eq_false_iff.2 (hbad.imp_right decide_eq_false)
    rw [verdict]
    rfl

/-! ## The three ways DECSMARTT ends (R138) -/

/-- On any record but a SMART one it is E_KIND, before the range is looked at. -/
theorem exec_decsmartt_of_notSmart {s : State} (hkind : recordKind s.record ≠ 5) :
    exec .decsmartt s = .next (Faulted s 6 0x46000000) := by
  show execDecsmartt s = _
  rw [execDecsmartt, if_pos hkind]
  rfl

theorem exec_decsmartt_of_outOfRange {s : State} (hkind : recordKind s.record = 5) (hout : 512 < s.roff.toNat + 382) :
    exec .decsmartt s = .next (Faulted s 3 0x46000000) := by
  have hrange : smartInRange s = false := (inRange_eq_false_iff s 0 382).2 hout
  show execDecsmartt s = _
  rw [execDecsmartt, if_neg (not_not_intro hkind), hrange]
  rfl

theorem exec_decsmartt_of_inRange {s : State} (hkind : recordKind s.record = 5) (hin : s.roff.toNat + 382 ≤ 512) :
    exec .decsmartt s = .next (writeRecord (mergedRecord s) s) := by
  have hrange : smartInRange s = true := (inRange_iff s 0 382).2 hin
  show execDecsmartt s = _
  rw [execDecsmartt, if_neg (not_not_intro hkind), hrange]
  rfl

/-! ## A merge, byte by byte (R33 (c), R138) -/

/-- RFLAGS' low byte after a merge, bit by bit: SEQVALID2, CKVALID2 and THRMERGED between the old bits (R26). -/
theorem mergedFlags_eq (old : Byte) (st : Status) :
    mergedFlags old st =
      old.extractLsb' 5 3 ++ BitVec.ofBool st.seqok ++ BitVec.ofBool st.ckok ++ (1 : BitVec 1) ++ old.extractLsb' 0 2 := by
  -- The width as the sum the fields add up to, so that `getLsbD_append` finds each of them.
  refine BitVec.eq_of_getLsbD_eq (w := 3 + 1 + 1 + 1 + 2) fun k hk => ?_
  simp only [mergedFlags, BitVec.getLsbD_append]
  interval_cases k <;> cases st.ckok <;> cases st.seqok <;> simp

/-- In an absent slot a merge changes nothing (R138). -/
theorem byteAt_mergedRecord_absent {s : State} {i : Nat} (hi : i < 30) (hid : byteAt s.record (slotRecord i) = 0)
    (j : Nat) (hj : j < 16) : byteAt (mergedRecord s) (slotRecord i + j) = byteAt s.record (slotRecord i + j) := by
  by_cases h6 : j = 6
  · rw [h6, byteAt_mergedRecord_threshold s i hi, if_pos hid]
  · exact byteAt_mergedRecord_slot s i j hj h6

/-- A merge leaves every byte of memory but the thresholds and RFLAGS' low byte (R138). -/
theorem memByte_mergedRecord (s : State) (a : Nat) (hflags : a ≠ 0x804) (hthr : ∀ i < 30, a ≠ 0x826 + 0x10 * i) :
    memByte (writeRecord (mergedRecord s) s) a = memByte s a := by
  by_cases hrec : 0x800 ≤ a ∧ a < 0xC00
  · obtain ⟨off, rfl⟩ := Nat.exists_eq_add_of_le hrec.1
    have kept : byteAt (mergedRecord s) off = byteAt s.record off :=
      byteAt_mergedRecord_of_out s off (by omega) fun i hi => by
        have := hthr i hi
        unfold slotRecord
        omega
    rw [memByte_record _ off (by omega), memByte_record s off (by omega), writeRecord_record, kept]
  · simp only [memByte, hrec, if_false, writeRecord_fb, writeRecord_pb, writeRecord_sr]

/-- A field of slot `i` of a SMART page, at its address in FB (R136). -/
theorem byteAt_slot (s : State) (i o : Nat) :
    byteAt s.fb (s.roff.toNat + (0x16 + 0x0C * i) + o) = byteField s (slotOffset i + o) := by
  rw [byteField, fieldAddr, slotOffset, Nat.add_assoc s.roff.toNat]

/-- Settles O45: the kind and the range choose the ending, and a merge is known byte by byte. -/
theorem decsmarttResult : Obligations.DecsmarttResult := by
  unfold Obligations.DecsmarttResult
  refine ⟨decodeOfEncode .decsmartt rfl, fun s _ =>
    ⟨exec_decsmartt_of_notSmart, exec_decsmartt_of_outOfRange, fun hkind hin => ?_⟩⟩
  refine ⟨_, exec_decsmartt_of_inRange hkind hin, rfl, fun i hi => ?threshold, ?flags, memByte_mergedRecord s⟩
  case threshold =>
    have offset : 0x026 + 0x10 * i = slotRecord i + 6 := by unfold slotRecord; omega
    rw [offset, byteAt_slot]
    exact byteAt_mergedRecord_threshold s i hi
  case flags => exact (byteAt_mergedRecord_flags s).trans (mergedFlags_eq _ _)

/-! ## The two pages together (R139) -/

theorem exec_decsmartv_of_inRange {s : State} (hin : s.roff.toNat + 382 ≤ 512) :
    exec .decsmartv s = .next (writeRecord (filled (smartWrites Config.params s)) s) := by
  rw [exec_decsmartv, decsmartvWith_of_inRange _ s ((inRange_iff s 0 382).2 hin)]

/-- A value page leaves a SMART record behind, so DECSMARTT in range merges into it, whatever stands in FB and STATUS. -/
theorem exec_decsmartt_of_valuePage {s m : State} (hrecord : m.record = filled (smartWrites Config.params s))
    (hin : m.roff.toNat + 382 ≤ 512) : exec .decsmartt m = .next (writeRecord (mergedRecord m) m) := by
  obtain ⟨hkind, -, -⟩ := freshRecord_smart Config.params s
  exact exec_decsmartt_of_inRange (hrecord ▸ hkind) hin

section
variable {P : Params} {s m : State} (hrecord : m.record = filled (smartWrites P s)) {i : Nat} (hi : i < 30)
include hrecord hi

/-- A slot absent from the value page is all zero after the merge (R139). -/
theorem byteAt_merged_absent (habsent : ¬SlotPresent P s i) (j : Nat) (hj : j < 16) :
    byteAt (mergedRecord m) (slotRecord i + j) = 0 := by
  have zero : ∀ j < 16, byteAt m.record (slotRecord i + j) = 0 := fun j hj => by
    rw [hrecord, byteAt_smart_of_unwritten P s i j hj (absurd · habsent)]
  rw [byteAt_mergedRecord_absent hi (zero 0 (by decide)) j hj, zero j hj]

/-- A slot present on the value page takes the threshold the second frame has at its place (R139). -/
theorem byteAt_merged_threshold (hpresent : SlotPresent P s i) :
    byteAt (mergedRecord m) (slotRecord i + 6) = byteField m (slotOffset i + 1) := by
  obtain ⟨hid, -⟩ := smart_id P s i hi hpresent
  have hne : byteAt m.record (slotRecord i) ≠ 0 := by rwa [hrecord, hid]
  rw [byteAt_mergedRecord_threshold m i hi, if_neg hne]

end

/-- Settles O46: the merge finds DECSMARTV's record, whose id bytes say which slots are present. -/
theorem smartPagesMergeByPosition : Obligations.SmartPagesMergeByPosition := by
  unfold Obligations.SmartPagesMergeByPosition
  intro s t u f st _ hin ht hu i hi d hd
  obtain rfl : d = slotRecord i := hd
  rw [exec_decsmartv_of_inRange hin, Host.Outcome.next.injEq] at ht
  have hroff : t.roff = s.roff := by rw [← ht, writeRecord_roff]
  have hrecord : ({ t with fb := f, status := st } : State).record = filled (smartWrites Config.params s) := by
    rw [← ht, writeRecord_record]
  rw [exec_decsmartt_of_valuePage hrecord (hroff ▸ hin), Host.Outcome.next.injEq] at hu
  subst hu
  rw [byteAt_slot, writeRecord_record]
  refine ⟨fun habsent j hj => ?absent, fun hpresent => ⟨?threshold, fun j hj h6 => ?others⟩⟩
  case absent => exact byteAt_merged_absent hrecord hi (not_not_intro habsent) j hj
  case threshold =>
    rw [byteAt_merged_threshold hrecord hi hpresent, ← byteAt_slot, hroff]
  case others => exact byteAt_mergedRecord_slot _ i j hj h6

end Sys2Proof.Machine

/-! PROOF. What a fault records (R161, R162): the code and the word an operation's own fault leaves in FAULTCODE and
FAULTCMD. -/

namespace Sys2Proof.Machine

@[simp] theorem faulted_faultCode (s : State) (code : Byte) (c : Word) : (Faulted s code c).faultCode = code := rfl

@[simp] theorem faulted_faultCmd (s : State) (code : Byte) (c : Word) : (Faulted s code c).faultCmd = c := rfl

/-- Settles O51: an operation that faults ends in the fault state of one of its own codes and its own word. -/
theorem faultCodesByOperation : Obligations.FaultCodesByOperation := by
  unfold Obligations.FaultCodesByOperation
  intro i s t hrun h hflt
  obtain ⟨code, hcode, rfl⟩ := exec_faulted hrun h hflt
  rw [faulted_faultCode, faulted_faultCmd]
  exact ⟨hcode, rfl⟩

end Sys2Proof.Machine
